-- ==== Sys2Proof/Word.lean ====
section
/-! DEFINITION. The word types of the cs4400_simulator core (spec/00_scope.md R6, R8, R9; spec/30_encoding.md R81). -/

namespace Sys2Proof

/-- One byte of data memory (20_memory R51). -/
abbrev Byte := BitVec 8

/-- A register slot, the pc or an instruction word: 32 bits (00_scope R6, R9; 10_state R29). -/
abbrev Word := BitVec 32

/-- An opcode field or a register field of the instruction format: 5 bits (30_encoding R81). -/
abbrev Field5 := BitVec 5

/-- The retained immediate field `imm16`: 16 bits (30_encoding R81). -/
abbrev Imm16 := BitVec 16

end Sys2Proof
end

