-- ==== Sys2Proof/Config.lean ====
section
/-! DEFINITION. The parameters that the spec leaves open and a model takes by name (spec/00_scope.md R7).
N, the fourth parameter, is the length of the loaded instruction memory. -/

namespace Sys2Proof

/-- `imm_ext`: how the 16-bit immediate widens for opcodes 0, 2, 6, 7 and 10 to 16 (00_scope R7, 30_encoding R84). -/
inductive ImmExt where
  | sext
  | zext
  deriving DecidableEq, Repr

/-- The two values of `byte_order` and of `file_byte_order` (00_scope R7). -/
inductive ByteOrder where
  | little
  | big
  deriving DecidableEq, Repr

/-- The named parameters of 00_scope R7. They are fixed for a machine: no step writes them.
A statement over every state is a statement over every value of them. -/
structure Config where
  /-- `imm_ext` (92_eei_decisions D1). -/
  immExt : ImmExt
  /-- `byte_order` of the 4-byte data-memory accesses (92_eei_decisions D5). -/
  byteOrder : ByteOrder
  /-- `file_byte_order` of the host's program file (92_eei_decisions D14). -/
  fileByteOrder : ByteOrder
  deriving DecidableEq, Repr

/-- The spec's defaults (00_scope R7). DESIGN CHOICE, the spec's own: 92_eei_decisions D1, D5, D14
(logs 3, 4, 5; unsafe where a claim rests on a default). -/
def Config.default : Config := { immExt := .sext, byteOrder := .little, fileByteOrder := .little }

end Sys2Proof
end

