-- ==== Sys2Proof/Syntax.lean ====
section
/-! DEFINITION. The instructions: one constructor for each row of spec/opcode_table.json (spec/30_encoding.md R87).
A constructor holds exactly the fields its opcode uses (R85), as the raw field bits of the format (R81). A register
field is 5 bits and may hold an index that no register has: the check is made at execution, not at decode (R86). -/

namespace Sys2Proof

/-- The two register fields of the one instruction format (30_encoding R81). -/
inductive FieldName where
  | ra
  | rb
  deriving DecidableEq, Repr

/-- The 22 operations, opcodes 0 to 21 in the order of the table (30_encoding R87).
Operands stand in field order: ra, rb, then the immediate. -/
inductive Instr where
  /-- Opcode 0 (40_arithmetic R121). -/
  | subl (ra : Field5) (imm : Imm16)
  /-- Opcode 1 (40_arithmetic R122). -/
  | addlRegReg (ra rb : Field5)
  /-- Opcode 2 (40_arithmetic R123). -/
  | addlImmReg (ra : Field5) (imm : Imm16)
  /-- Opcode 3 (40_arithmetic R124). -/
  | imull (ra rb : Field5)
  /-- Opcode 4 (40_arithmetic R125). -/
  | shrl (ra : Field5)
  /-- Opcode 5 (41_move R141). -/
  | movlRegReg (ra rb : Field5)
  /-- Opcode 6 (41_move R142). -/
  | movlDerefReg (ra rb : Field5) (imm : Imm16)
  /-- Opcode 7 (41_move R143). -/
  | movlRegDeref (ra rb : Field5) (imm : Imm16)
  /-- Opcode 8 (41_move R144): only `imm16[7:0]` is used (30_encoding R84). -/
  | movlImmReg (ra : Field5) (imm8 : Byte)
  /-- Opcode 9 (42_compare_branch R160). -/
  | cmpl (ra rb : Field5)
  /-- Opcode 10 (42_compare_branch R167). -/
  | je (imm : Imm16)
  /-- Opcode 11 (42_compare_branch R168). -/
  | jl (imm : Imm16)
  /-- Opcode 12 (42_compare_branch R169). -/
  | jle (imm : Imm16)
  /-- Opcode 13 (42_compare_branch R170). -/
  | jge (imm : Imm16)
  /-- Opcode 14 (42_compare_branch R171). -/
  | jbe (imm : Imm16)
  /-- Opcode 15 (42_compare_branch R172). -/
  | jmp (imm : Imm16)
  /-- Opcode 16 (43_stack R191). -/
  | call (imm : Imm16)
  /-- Opcode 17 (43_stack R192). -/
  | ret
  /-- Opcode 18 (43_stack R193). -/
  | pushl (ra : Field5)
  /-- Opcode 19 (43_stack R194). -/
  | popl (ra : Field5)
  /-- Opcode 20 (44_io R211). -/
  | printr (ra : Field5)
  /-- Opcode 21 (44_io R212). -/
  | readr (ra : Field5)
  deriving DecidableEq, Repr

end Sys2Proof
end

