-- ==== Sys2Proof/Machine/State.lean ====
section
/-! DEFINITION. The state of the core as plain data, its reset value, and the reasons a step can stop
(spec/10_state.md; spec/60_exceptions.md R231; spec/20_memory.md R51, R61). -/

namespace Sys2Proof.Machine

/-- A slot of the register file: 0 to 15 general, 6 the stack pointer, 16 FLAGS (10_state R20 to R24). -/
abbrev Slot := Fin 17

/-- A general register, slots 0 to 15 (10_state R21). An operand is never FLAGS (R27). -/
abbrev GReg := Fin 16

/-- The data memory DMEM: its bytes that differ from 0, as (address, byte) cells with addresses strictly rising
(20_memory R51). -/
abbrev Memory := List Host.Cell

/-- The width of a DMEM access: 1 byte or 4 bytes (20_memory R52, R53). -/
inductive Width where
  | byte
  | word
  deriving DecidableEq, Repr

/-- The fault causes and each cause's own data (60_exceptions R231). -/
inductive FaultCause where
  /-- Cause 1, executing a word with op 22 to 31 (60_exceptions R232). -/
  | illegalOpcode (op : Field5)
  /-- Cause 2, a used register field holding 16 to 31 (60_exceptions R233). -/
  | illegalRegister (field : FieldName) (index : Field5)
  /-- Cause 3, a DMEM access out of bounds; the address is an exact integer (60_exceptions R234). -/
  | memoryOutOfRange (addr : Int) (width : Width)
  /-- Cause 4, a fetch with pc above 4N (60_exceptions R235). -/
  | fetchOutOfRange
  /-- Cause 5, a fetch with pc below 4N and not a multiple of 4 (60_exceptions R236). -/
  | fetchMisaligned
  /-- Cause 6, readr when the host answers `fail` (60_exceptions R237). -/
  | inputError
  deriving DecidableEq, Repr

/-- The fault information (60_exceptions R231): the cause with its data, the pc, and the instruction word.
`word` is `none` where no word was fetched: the two fetch causes record the pc alone (log 12). -/
structure FaultInfo where
  cause : FaultCause
  pc : Word
  word : Option Word
  deriving DecidableEq, Repr

/-- The run status (10_state R31). -/
inductive RunStatus where
  | running
  | halted
  | faulted (info : FaultInfo)
  deriving DecidableEq, Repr

/-- One answer of the host to a readr: a 32-bit value, or `fail` (44_io R212, 00_scope R10 `In()`). -/
inductive Answer where
  | value (v : Word)
  | fail
  deriving DecidableEq, Repr

/-- The state of the core (10_state; 20_memory R51, R61), with the model's own `input` and `config`. -/
structure State where
  /-- The register file: 17 slots of 32 bits (10_state R20). Slot 6 is SP (R22), slot 16 is FLAGS (R24). -/
  x : Vector Word 17
  /-- The program counter, a byte offset into IMEM (10_state R29). -/
  pc : Word
  /-- The data memory, 1024 bytes (20_memory R51). -/
  dmem : Memory
  /-- The instruction memory, word k at byte offset 4k; its length is N (10_state R32, 20_memory R61). -/
  imem : List Word
  /-- The run status (10_state R31). -/
  status : RunStatus
  /-- The output history, oldest value first (10_state R33). -/
  output : List Word
  /-- The MODEL's own: the host's answers that no readr has taken yet, oldest first (44_io R212; log 6). -/
  input : List Answer
  /-- The MODEL's own place for the parameters of 00_scope R7 (log 1). -/
  config : Config
  deriving DecidableEq, Repr

/-- The state at the start of a run (10_state R38): every slot 0 but SP = 1024, DMEM all 0, pc 0, Running, no output.
IMEM holds the loaded words; here none is loaded (log 2), and `State.boot` is this state with a loaded program.
DESIGN CHOICE: the host has answered nothing yet (log 6), and the parameters have the spec's defaults (logs 3 to 5). -/
def State.reset : State :=
  { x := (Vector.replicate 17 0).set 6 1024
    pc := 0
    dmem := []
    imem := []
    status := .running
    output := []
    input := []
    config := Config.default }

/-- Where the machine has stopped with a fault. -/
inductive Fault where
  /-- Answered by `step` at a core whose status is already Faulted(info): Faulted is final and no step is taken
  (30_encoding R94, 60_exceptions R239). Taking the fault itself is a next state (60_exceptions R238). Safe: the spec
  gives no step here. -/
  | faulted (info : FaultInfo)
  deriving DecidableEq, Repr

/-- Why the model gives no next state although no fault stands. -/
inductive Refusal where
  /-- Answered by `step` at a core whose status is Halted: Halted is final and no step is taken (30_encoding R94).
  Safe: the spec gives no step here. -/
  | halted
  /-- An instruction that has no meaning yet, by its mnemonic. No arm of `exec` answers it. Safe. -/
  | notModelled (mnemonic : String)
  deriving DecidableEq, Repr

/-- What one instruction or one step answers. -/
abbrev Result := Host.Outcome State Fault Refusal

end Sys2Proof.Machine
end

