-- ==== Sys2Proof/Machine/Ops.lean ====
section
/-! DEFINITION. The named operations over registers, memory, the stack, the pc and the status, and taking a fault
(spec/00_scope.md R10; spec/20_memory.md; spec/43_stack.md R190; spec/60_exceptions.md R238). -/

namespace Sys2Proof.Machine

/-! ## Registers (10_state R20 to R28) -/

/-- The slot of the stack pointer, 6 (00_scope R6). -/
def spSlot : Slot := 6

/-- The stack pointer as a general register, r6 (10_state R22). -/
def spReg : GReg := 6

/-- The slot of FLAGS, 16 (00_scope R6). -/
def flagsSlot : Slot := 16

/-- The slot of a general register: r0 to r15 are slots 0 to 15 (10_state R21). -/
def slotOf (r : GReg) : Slot := r.castSucc

/-- `x[i]` (00_scope R10). -/
def State.slot (s : State) (i : Slot) : Word := s.x[i]

/-- `x[i] <- v` (00_scope R10). -/
def State.setSlot (s : State) (i : Slot) (v : Word) : State := { s with x := s.x.set i v }

/-- A general register's value: none is hard-wired (10_state R21). -/
def State.gpr (s : State) (r : GReg) : Word := s.slot (slotOf r)

/-- Write a general register; r6 is written unchecked (10_state R21, R23). -/
def State.setGpr (s : State) (r : GReg) (v : Word) : State := s.setSlot (slotOf r) v

/-- `SP`, another name for `x[6]` (00_scope R10). -/
def State.sp (s : State) : Word := s.slot spSlot

/-- Write SP; its range is not checked (10_state R23). -/
def State.setSp (s : State) (v : Word) : State := s.setSlot spSlot v

/-- `FLAGS`, another name for `x[16]` (00_scope R10). -/
def State.flags (s : State) : Word := s.slot flagsSlot

/-- Write all 32 bits of FLAGS (10_state R25). -/
def State.setFlags (s : State) (v : Word) : State := s.setSlot flagsSlot v

/-! ## The program counter (10_state R29, R30) -/

/-- N, the number of instruction words loaded (00_scope R10). -/
def State.n (s : State) : Nat := s.imem.length

/-- The offset of the next instruction in order, `pc + 4` modulo 2^32 (10_state R30). -/
def State.nextPc (s : State) : Word := s.pc + 4

/-- Set the next pc. -/
def State.setPc (s : State) (t : Word) : State := { s with pc := t }

/-- `pc <- pc + 4`, what every non-control instruction does (10_state R30 a). -/
def State.advance (s : State) : State := s.setPc s.nextPc

/-! ## Data memory (20_memory R51 to R58) -/

/-- The size of DMEM in bytes (00_scope R6). -/
def memSize : Nat := 1024

/-- The most words a program may have, 2^28 (00_scope R7, 70_reset R271). -/
def maxWords : Nat := 2 ^ 28

/-- What an address with no cell reads as: all bytes of DMEM are 0 at reset (20_memory R51). -/
def Memory.unlisted : Byte := 0

/-- The byte at an address. -/
def Memory.read : Memory → Nat → Byte
  | [], _ => Memory.unlisted
  | (a, b) :: m, k => if a = k then b else Memory.read m k

/-- Put a cell before the first cell of a higher address. -/
def Memory.insert : Memory → Nat → Byte → Memory
  | [], k, v => [(k, v)]
  | (a, b) :: m, k, v => if k < a then (k, v) :: (a, b) :: m else (a, b) :: Memory.insert m k v

/-- Store a byte, keeping the canonical form: the address's cell is removed, and a new one stands in its place unless
the byte is what an unlisted address reads as. -/
def Memory.write (m : Memory) (k : Nat) (v : Byte) : Memory :=
  if v = Memory.unlisted then m.filter (fun c => c.1 != k)
  else Memory.insert (m.filter (fun c => c.1 != k)) k v

/-- The canonical form: addresses strictly rising, every cell inside DMEM, none equal to the unlisted value. -/
abbrev Memory.wf (m : Memory) : Prop :=
  m.Pairwise (fun c d => c.1 < d.1) ∧ ∀ c ∈ m, c.1 < memSize ∧ c.2 ≠ Memory.unlisted

/-- Byte k of a word, bits 8k+7 to 8k (20_memory R56). -/
def byteOf (v : Word) (k : Nat) : Byte := v.extractLsb' (8 * k) 8

/-- `b3 : b2 : b1 : b0`, the word of four bytes, b0 the least significant (00_scope R9, 20_memory R56). -/
def wordOf (b3 b2 b1 b0 : Byte) : Word := b3 ++ b2 ++ b1 ++ b0

/-- The four bytes from address a as a word, in the parameter's byte order (20_memory R56). -/
def Memory.readWord (o : ByteOrder) (m : Memory) (a : Nat) : Word :=
  match o with
  | .little => wordOf (m.read (a + 3)) (m.read (a + 2)) (m.read (a + 1)) (m.read a)
  | .big => wordOf (m.read a) (m.read (a + 1)) (m.read (a + 2)) (m.read (a + 3))

/-- Store a word's four bytes from address a, in the parameter's byte order (20_memory R56). -/
def Memory.writeWord (o : ByteOrder) (m : Memory) (a : Nat) (v : Word) : Memory :=
  match o with
  | .little => (((m.write a (byteOf v 0)).write (a + 1) (byteOf v 1)).write (a + 2) (byteOf v 2)).write (a + 3) (byteOf v 3)
  | .big => (((m.write a (byteOf v 3)).write (a + 1) (byteOf v 2)).write (a + 2) (byteOf v 1)).write (a + 3) (byteOf v 0)

/-- The number of bytes of an access (20_memory R52). -/
def Width.bytes : Width → Nat
  | .byte => 1
  | .word => 4

/-- The bounds check: `0 ≤ a` and `a + n ≤ 1024`, on the exact integer address (20_memory R53). There is no alignment
rule (R57). -/
abbrev inBounds (a : Int) (n : Width) : Prop := 0 ≤ a ∧ a + n.bytes ≤ memSize

/-- `MemRead(a, n)` (00_scope R10; 20_memory R53, R55, R56): a byte is zero-extended. -/
def State.memRead (s : State) (a : Int) (n : Width) : Except FaultCause Word :=
  if inBounds a n then
    match n with
    | .byte => .ok ((s.dmem.read a.toNat).setWidth 32)
    | .word => .ok (s.dmem.readWord s.config.byteOrder a.toNat)
  else .error (.memoryOutOfRange a n)

/-- `MemWrite(a, n, v)` (00_scope R10; 20_memory R53, R55, R56): a byte store drops bits 31 to 8. -/
def State.memWrite (s : State) (a : Int) (n : Width) (v : Word) : Except FaultCause State :=
  if inBounds a n then
    match n with
    | .byte => .ok { s with dmem := s.dmem.write a.toNat (byteOf v 0) }
    | .word => .ok { s with dmem := s.dmem.writeWord s.config.byteOrder a.toNat v }
  else .error (.memoryOutOfRange a n)

/-! ## The stack (43_stack R190) -/

/-- The exact address a push stores to: `s32(SP) − 4` (43_stack R190). -/
def State.pushAddr (s : State) : Int := s.sp.toInt - 4

/-- The exact address a pop reads from: `s32(SP)` (43_stack R190). -/
def State.popAddr (s : State) : Int := s.sp.toInt

/-- `SP <- a`, the first step of a push (43_stack R193). -/
def State.spDown (s : State) : State := s.setSp (BitVec.ofInt 32 s.pushAddr)

/-- A push of v: `SP <- a; MemWrite(a, 4, v)`, or the fault with nothing changed (43_stack R190). -/
def State.push (s : State) (v : Word) : Except FaultCause State := s.spDown.memWrite s.pushAddr .word v

/-- The read of a pop: `MemRead(a, 4)` (43_stack R190). -/
def State.popRead (s : State) : Except FaultCause Word := s.memRead s.popAddr .word

/-! ## Ports (44_io R210 to R212) -/

/-- `Out(v)`: append v to the output history (44_io R211). -/
def State.emit (s : State) (v : Word) : State := { s with output := s.output ++ [v] }

/-- Take the host's next answer off the queue (44_io R212). -/
def State.dropAnswer (s : State) : State := { s with input := s.input.tail }

/-- The host answers: one more answer stands behind those not yet taken (00_scope R5 (3)). The host's action, no
instruction's. -/
def State.withAnswer (s : State) (r : Answer) : State := { s with input := s.input ++ [r] }

/-! ## Status: halting and taking a fault (60_exceptions R238, R241) -/

/-- `Halt()`: the status becomes Halted and nothing else changes (00_scope R10, 60_exceptions R241). -/
def State.halt (s : State) : State := { s with status := .halted }

/-- The word a fetch at pc reads, `IMEM[pc / 4]`; none where pc is no multiple of 4 below 4N (20_memory R62). -/
def State.fetched (s : State) : Option Word :=
  if s.pc.toNat % 4 = 0 then s.imem[s.pc.toNat / 4]? else none

/-- The fault information recorded for a cause (60_exceptions R231). -/
def State.faultInfo (s : State) (c : FaultCause) : FaultInfo := { cause := c, pc := s.pc, word := s.fetched }

/-- FAULT ENTRY, the one operation that takes a fault (60_exceptions R238): the status becomes Faulted(F, info); no
register, FLAGS, DMEM, output, input or pc changes. There is no handler and no return (R239). -/
def raise (c : FaultCause) (s : State) : Result := .next { s with status := .faulted (s.faultInfo c) }

/-- All writes of an instruction are committed together, or none is and its fault is taken (30_encoding R99). -/
def commit (s : State) (r : Except FaultCause State) : Result :=
  match r with
  | .ok s' => .next s'
  | .error c => raise c s

/-- The cause number of 60_exceptions R231. No program can observe it (log 12). -/
def FaultCause.code : FaultCause → Nat
  | .illegalOpcode _ => 1
  | .illegalRegister _ _ => 2
  | .memoryOutOfRange _ _ => 3
  | .fetchOutOfRange => 4
  | .fetchMisaligned => 5
  | .inputError => 6

/-- The process exit status the host sees: none while Running, 0 for Halted, 1 for Faulted (00_scope R5 (4)). -/
def RunStatus.exitStatus : RunStatus → Option Nat
  | .running => none
  | .halted => some 0
  | .faulted _ => some 1

end Sys2Proof.Machine
end

