-- ==== Sys2Proof/Machine/Operands.lean ====
section
/-! DEFINITION. Operand forms: register operands, immediates, effective addresses, branch targets
(spec/30_encoding.md R84 to R86, R98; spec/20_memory.md R54; spec/42_compare_branch.md R166). -/

namespace Sys2Proof.Machine

/-- The check of one used register field: 0 to 15 names a general register, 16 to 31 is IllegalRegister
(30_encoding R86, R98). -/
def useReg (f : FieldName) (r : Field5) : Except FaultCause GReg :=
  if h : r.toNat < 16 then .ok ⟨r.toNat, h⟩ else .error (.illegalRegister f r)

/-- `simm`: imm16 widened by the parameter `imm_ext` (30_encoding R84). -/
def widen (e : ImmExt) (imm : Imm16) : Word :=
  match e with
  | .sext => imm.signExtend 32
  | .zext => imm.setWidth 32

/-- `simm` under the machine's own `imm_ext` (30_encoding R84). -/
def State.simm (s : State) (imm : Imm16) : Word := widen s.config.immExt imm

/-- `imm8` of movl_imm_reg: 8 bits, zero-extended whatever `imm_ext` is (30_encoding R84). -/
def zextImm8 (imm8 : Byte) : Word := imm8.setWidth 32

/-- The exact integer address `s32(x[base]) + s32(simm)`, with no wrap-around (20_memory R54). -/
def State.effAddr (s : State) (base : GReg) (imm : Imm16) : Int := (s.gpr base).toInt + (s.simm imm).toInt

/-- The target of a taken branch, jmp or call: `(pc + 4 + simm) mod 2^32` (42_compare_branch R166). -/
def State.target (s : State) (imm : Imm16) : Word := s.nextPc + s.simm imm

/-- The next pc of a conditional branch: its target if taken, else `pc + 4` (42_compare_branch R166). -/
def State.branch (s : State) (taken : Bool) (imm : Imm16) : State :=
  s.setPc (if taken then s.target imm else s.nextPc)

end Sys2Proof.Machine
end

