-- ==== Sys2Proof/Machine/Flags.lean ====
section
/-! DEFINITION. The FLAGS word: what cmpl computes (spec/42_compare_branch.md R161 to R165), the layout
(spec/10_state.md R24) and the five branch conditions (spec/42_compare_branch.md R167 to R171). -/

namespace Sys2Proof.Machine

/-- The wrapped result `b − a` of cmpl (42_compare_branch R160). -/
def cmplResult (a b : Word) : Word := b - a

/-- CF: the unsigned borrow of `b − a` (42_compare_branch R161). -/
def cmplCF (a b : Word) : Bool := b.toNat < a.toNat

/-- ZF: the result is 0 (42_compare_branch R162). -/
def cmplZF (a b : Word) : Bool := cmplResult a b == 0

/-- SF: bit 31 of the result (42_compare_branch R163). -/
def cmplSF (a b : Word) : Bool := (cmplResult a b).getLsbD 31

/-- OF: the source's formula, its comparisons with 0 strict as written (42_compare_branch R164, 90_conflicts C8). -/
def cmplOF (a b : Word) : Bool :=
  (decide (0 < b.toInt) && decide (a.toInt < 0) && decide ((cmplResult a b).toInt < 0)) ||
  (decide (b.toInt < 0) && decide (0 < a.toInt) && decide (0 < (cmplResult a b).toInt))

/-- One flag as a 32-bit 0 or 1, `zext_32` of the bit. -/
def flagBit (b : Bool) : Word := (BitVec.ofBool b).setWidth 32

/-- The FLAGS word `CF | ZF<<6 | SF<<7 | OF<<11`, every other bit 0 (10_state R24, R28; 42_compare_branch R165). -/
def packFlags (cf zf sf of_ : Bool) : Word :=
  flagBit cf ||| (flagBit zf <<< 6) ||| (flagBit sf <<< 7) ||| (flagBit of_ <<< 11)

/-- The FLAGS word cmpl writes for operands a = x[ra] and b = x[rb] (42_compare_branch R160, R165). -/
def cmplFlags (a b : Word) : Word := packFlags (cmplCF a b) (cmplZF a b) (cmplSF a b) (cmplOF a b)

/-- The bits of FLAGS that have a meaning: 0, 6, 7 and 11 (10_state R24). -/
def flagsMask : Word := 0x8C1

/-- CF = FLAGS[0] (10_state R26). -/
def State.cf (s : State) : Bool := s.flags.getLsbD 0

/-- ZF = FLAGS[6] (10_state R26). -/
def State.zf (s : State) : Bool := s.flags.getLsbD 6

/-- SF = FLAGS[7] (10_state R26). -/
def State.sf (s : State) : Bool := s.flags.getLsbD 7

/-- OF = FLAGS[11] (10_state R26). -/
def State.of_ (s : State) : Bool := s.flags.getLsbD 11

/-- je: ZF = 1 (42_compare_branch R167). -/
def State.condE (s : State) : Bool := s.zf

/-- jl: SF ≠ OF (42_compare_branch R168). -/
def State.condL (s : State) : Bool := s.sf != s.of_

/-- jle: SF ≠ OF, or ZF = 1 (42_compare_branch R169). -/
def State.condLE (s : State) : Bool := (s.sf != s.of_) || s.zf

/-- jge: SF = OF (42_compare_branch R170). -/
def State.condGE (s : State) : Bool := s.sf == s.of_

/-- jbe: CF = 1 or ZF = 1 (42_compare_branch R171). -/
def State.condBE (s : State) : Bool := s.cf || s.zf

end Sys2Proof.Machine
end

