-- ==== Sys2Proof/Machine/Arithmetic.lean ====
section
/-! DEFINITION. Opcodes 0 to 4: subl, addl_reg_reg, addl_imm_reg, imull, shrl (spec/40_arithmetic.md R120 to R125).
Results wrap modulo 2^32 (R120, 92_eei_decisions D2; log 7). None writes FLAGS or touches DMEM. -/

namespace Sys2Proof.Machine

/-- `x[ra] <- x[ra] − simm; pc <- pc + 4` (40_arithmetic R121). -/
def execSubl (ra : Field5) (imm : Imm16) (s : State) : Result := commit s do
  let a ← useReg .ra ra
  return (s.setGpr a (s.gpr a - s.simm imm)).advance

/-- `x[rb] <- x[rb] + x[ra]; pc <- pc + 4` (40_arithmetic R122). -/
def execAddlRegReg (ra rb : Field5) (s : State) : Result := commit s do
  let a ← useReg .ra ra
  let b ← useReg .rb rb
  return (s.setGpr b (s.gpr b + s.gpr a)).advance

/-- `x[ra] <- x[ra] + simm; pc <- pc + 4` (40_arithmetic R123). -/
def execAddlImmReg (ra : Field5) (imm : Imm16) (s : State) : Result := commit s do
  let a ← useReg .ra ra
  return (s.setGpr a (s.gpr a + s.simm imm)).advance

/-- `x[rb] <- (s32(x[rb]) * s32(x[ra]))[31:0]; pc <- pc + 4`: the low 32 bits of the exact product
(40_arithmetic R124). -/
def execImull (ra rb : Field5) (s : State) : Result := commit s do
  let a ← useReg .ra ra
  let b ← useReg .rb rb
  return (s.setGpr b (BitVec.ofInt 32 ((s.gpr b).toInt * (s.gpr a).toInt))).advance

/-- `x[ra] <- x[ra] >>u 1; pc <- pc + 4` (40_arithmetic R125). -/
def execShrl (ra : Field5) (s : State) : Result := commit s do
  let a ← useReg .ra ra
  return (s.setGpr a (s.gpr a >>> 1)).advance

end Sys2Proof.Machine
end

