-- ==== Sys2Proof/Machine/CompareBranch.lean ====
section
/-! DEFINITION. Opcodes 9 to 15: cmpl, je, jl, jle, jge, jbe, jmp (spec/42_compare_branch.md R160 to R172). A branch
uses no register field and raises no fault; its target is checked at the next fetch (R166). -/

namespace Sys2Proof.Machine

/-- FLAGS from `x[rb] − x[ra]`, all 32 bits; `pc <- pc + 4` (42_compare_branch R160). -/
def execCmpl (ra rb : Field5) (s : State) : Result := commit s do
  let a ← useReg .ra ra
  let b ← useReg .rb rb
  return (s.setFlags (cmplFlags (s.gpr a) (s.gpr b))).advance

/-- Taken if ZF (42_compare_branch R167). -/
def execJe (imm : Imm16) (s : State) : Result := .next (s.branch s.condE imm)

/-- Taken if SF ≠ OF (42_compare_branch R168). -/
def execJl (imm : Imm16) (s : State) : Result := .next (s.branch s.condL imm)

/-- Taken if SF ≠ OF or ZF (42_compare_branch R169). -/
def execJle (imm : Imm16) (s : State) : Result := .next (s.branch s.condLE imm)

/-- Taken if SF = OF (42_compare_branch R170). -/
def execJge (imm : Imm16) (s : State) : Result := .next (s.branch s.condGE imm)

/-- Taken if CF or ZF (42_compare_branch R171). -/
def execJbe (imm : Imm16) (s : State) : Result := .next (s.branch s.condBE imm)

/-- Always taken (42_compare_branch R172). -/
def execJmp (imm : Imm16) (s : State) : Result := .next (s.setPc (s.target imm))

end Sys2Proof.Machine
end

