-- ==== Sys2Proof/Machine/Io.lean ====
section
/-! DEFINITION. Opcodes 20 and 21: printr, readr (spec/44_io.md R210 to R212). Neither writes FLAGS or DMEM. -/

namespace Sys2Proof.Machine

/-- `Out(x[ra]); pc <- pc + 4` (44_io R211). -/
def execPrintr (ra : Field5) (s : State) : Result := commit s do
  let a ← useReg .ra ra
  return (s.emit (s.gpr a)).advance

/-- `r <- In()`, then InputError if r is `fail`, else `x[ra] <- r; pc <- pc + 4` (44_io R212). The register check comes
before any input is asked for. With no answer yet the core WAITS: nothing changes (R210, R212 a; log 6). A `fail` is
not taken off the queue, since fault entry changes nothing but the status (60_exceptions R238). -/
def execReadr (ra : Field5) (s : State) : Result := commit s do
  let a ← useReg .ra ra
  match s.input with
  | [] => return s
  | .fail :: _ => throw .inputError
  | .value v :: _ => return (s.dropAnswer.setGpr a v).advance

end Sys2Proof.Machine
end

