-- ==== Sys2Proof/Machine/Move.lean ====
section
/-! DEFINITION. Opcodes 5 to 8: movl_reg_reg, movl_deref_reg, movl_reg_deref, movl_imm_reg (spec/41_move.md R140 to
R144). The two memory forms move one byte. None writes FLAGS. -/

namespace Sys2Proof.Machine

/-- `x[rb] <- x[ra]; pc <- pc + 4` (41_move R141). -/
def execMovlRegReg (ra rb : Field5) (s : State) : Result := commit s do
  let a ← useReg .ra ra
  let b ← useReg .rb rb
  return (s.setGpr b (s.gpr a)).advance

/-- `x[rb] <- MemRead(s32(x[ra]) + s32(simm), 1); pc <- pc + 4`: the base is ra (41_move R142). -/
def execMovlDerefReg (ra rb : Field5) (imm : Imm16) (s : State) : Result := commit s do
  let base ← useReg .ra ra
  let dst ← useReg .rb rb
  let v ← s.memRead (s.effAddr base imm) .byte
  return (s.setGpr dst v).advance

/-- `MemWrite(s32(x[rb]) + s32(simm), 1, x[ra]); pc <- pc + 4`: the base is rb (41_move R143). -/
def execMovlRegDeref (ra rb : Field5) (imm : Imm16) (s : State) : Result := commit s do
  let src ← useReg .ra ra
  let base ← useReg .rb rb
  let t ← s.memWrite (s.effAddr base imm) .byte (s.gpr src)
  return t.advance

/-- `x[ra] <- zext_32(imm16[7:0]); pc <- pc + 4` (41_move R144). -/
def execMovlImmReg (ra : Field5) (imm8 : Byte) (s : State) : Result := commit s do
  let a ← useReg .ra ra
  return (s.setGpr a (zextImm8 imm8)).advance

end Sys2Proof.Machine
end

