-- ==== Sys2Proof/Machine/Stack.lean ====
section
/-! DEFINITION. Opcodes 16 to 19: call, ret, pushl, popl (spec/43_stack.md R190 to R194). None writes FLAGS; a fault
changes no byte, no SP and no pc. -/

namespace Sys2Proof.Machine

/-- The SP value at which ret halts instead of returning (43_stack R192; 00_scope R6 STACK_TOP). -/
def sentinel : Word := 1024

/-- Push `pc + 4`, then `pc <- (pc + 4 + simm) mod 2^32` (43_stack R191). -/
def execCall (imm : Imm16) (s : State) : Result := commit s do
  let t ← s.push s.nextPc
  return t.setPc (s.target imm)

/-- At SP = 1024 the run halts and nothing else changes; otherwise `v <- MemRead(a, 4); SP <- a + 4; pc <- v`, v
unchecked (43_stack R192). -/
def execRet (s : State) : Result :=
  if s.sp = sentinel then .next s.halt
  else commit s do
    let v ← s.popRead
    return (s.setSp (BitVec.ofInt 32 (s.popAddr + 4))).setPc v

/-- `SP <- a; MemWrite(a, 4, x[ra]); pc <- pc + 4`, x[ra] read after the SP update, so pushl r6 stores the
decremented SP (43_stack R193). -/
def execPushl (ra : Field5) (s : State) : Result := commit s do
  let r ← useReg .ra ra
  let t ← s.push (s.spDown.gpr r)
  return t.advance

/-- `x[ra] <- MemRead(a, 4); x[6] <- x[6] + 4; pc <- pc + 4`, x[6] read after the load is written, so popl r6 leaves
the loaded value plus 4 (43_stack R194). -/
def execPopl (ra : Field5) (s : State) : Result := commit s do
  let r ← useReg .ra ra
  let v ← s.popRead
  let t := s.setGpr r v
  return (t.setSp (t.sp + 4)).advance

end Sys2Proof.Machine
end

