-- ==== Sys2Proof/WellFormed.lean ====
section
/-! DEFINITION. Which instructions are well formed: every used register field holds 0 to 15 (spec/30_encoding.md R86).
An ill-formed instruction decodes and runs; it takes the fault IllegalRegister (R98), which the meanings say. -/

namespace Sys2Proof

/-- The register fields an opcode uses, in the order they are checked, ra before rb (30_encoding R87, R98). -/
def Instr.usedFields : Instr → List (FieldName × Field5)
  | .subl ra _ => [(.ra, ra)]
  | .addlRegReg ra rb => [(.ra, ra), (.rb, rb)]
  | .addlImmReg ra _ => [(.ra, ra)]
  | .imull ra rb => [(.ra, ra), (.rb, rb)]
  | .shrl ra => [(.ra, ra)]
  | .movlRegReg ra rb => [(.ra, ra), (.rb, rb)]
  | .movlDerefReg ra rb _ => [(.ra, ra), (.rb, rb)]
  | .movlRegDeref ra rb _ => [(.ra, ra), (.rb, rb)]
  | .movlImmReg ra _ => [(.ra, ra)]
  | .cmpl ra rb => [(.ra, ra), (.rb, rb)]
  | .je _ => []
  | .jl _ => []
  | .jle _ => []
  | .jge _ => []
  | .jbe _ => []
  | .jmp _ => []
  | .call _ => []
  | .ret => []
  | .pushl ra => [(.ra, ra)]
  | .popl ra => [(.ra, ra)]
  | .printr ra => [(.ra, ra)]
  | .readr ra => [(.ra, ra)]

/-- A register field that names a general register: 0 to 15 (30_encoding R86). -/
def fieldLegal (f : Field5) : Bool := f.toNat ≤ 15

/-- Every used register field is legal (30_encoding R86). -/
def Instr.wellFormed (i : Instr) : Bool := i.usedFields.all fun p => fieldLegal p.2

end Sys2Proof
end

