-- ==== Sys2Proof/Decode.lean ====
section
/-! DEFINITION. Decoding and encoding (spec/30_encoding.md sections 1 to 4). Every 32-bit word decodes to a record
(R82); the opcode check of R97 then gives an instruction or rejects by name. The encoder writes R93's canonical word. -/

namespace Sys2Proof

/-- The instruction record (op, ra, rb, imm16) of 30_encoding R81, R82. -/
structure Record where
  op : Field5
  ra : Field5
  rb : Field5
  imm16 : Imm16
  deriving DecidableEq, Repr

/-- The fields of a word: op = w[31:27], ra = w[26:22], rb = w[21:17], imm16 = w[15:0]; bit 16 is never read
(30_encoding R81, R83; 90_conflicts C3). -/
def decodeRecord (w : Word) : Record :=
  { op := w.extractLsb' 27 5
    ra := w.extractLsb' 22 5
    rb := w.extractLsb' 17 5
    imm16 := w.extractLsb' 0 16 }

/-- Why a word is no instruction. -/
inductive DecodeError where
  /-- The opcode field holds 22 to 31 (30_encoding R88, R97). Raised when such a word is executed: safe. -/
  | illegalOpcode (op : Field5)
  deriving DecidableEq, Repr

/-- The instruction a record stands for, by the opcode map (30_encoding R87); opcodes 22 to 31 are rejected by name
(R88, R97). -/
def Record.instr (r : Record) : Except DecodeError Instr :=
  match r.op.toNat with
  | 0 => .ok (.subl r.ra r.imm16)
  | 1 => .ok (.addlRegReg r.ra r.rb)
  | 2 => .ok (.addlImmReg r.ra r.imm16)
  | 3 => .ok (.imull r.ra r.rb)
  | 4 => .ok (.shrl r.ra)
  | 5 => .ok (.movlRegReg r.ra r.rb)
  | 6 => .ok (.movlDerefReg r.ra r.rb r.imm16)
  | 7 => .ok (.movlRegDeref r.ra r.rb r.imm16)
  | 8 => .ok (.movlImmReg r.ra (r.imm16.extractLsb' 0 8))
  | 9 => .ok (.cmpl r.ra r.rb)
  | 10 => .ok (.je r.imm16)
  | 11 => .ok (.jl r.imm16)
  | 12 => .ok (.jle r.imm16)
  | 13 => .ok (.jge r.imm16)
  | 14 => .ok (.jbe r.imm16)
  | 15 => .ok (.jmp r.imm16)
  | 16 => .ok (.call r.imm16)
  | 17 => .ok .ret
  | 18 => .ok (.pushl r.ra)
  | 19 => .ok (.popl r.ra)
  | 20 => .ok (.printr r.ra)
  | 21 => .ok (.readr r.ra)
  | _ => .error (.illegalOpcode r.op)

/-- The instruction of a word: its record (30_encoding R96), then the opcode check (R97). -/
def decode (w : Word) : Except DecodeError Instr := (decodeRecord w).instr

/-- The opcode number of an instruction (30_encoding R87). -/
def Instr.opcode : Instr → Field5
  | .subl _ _ => 0
  | .addlRegReg _ _ => 1
  | .addlImmReg _ _ => 2
  | .imull _ _ => 3
  | .shrl _ => 4
  | .movlRegReg _ _ => 5
  | .movlDerefReg _ _ _ => 6
  | .movlRegDeref _ _ _ => 7
  | .movlImmReg _ _ => 8
  | .cmpl _ _ => 9
  | .je _ => 10
  | .jl _ => 11
  | .jle _ => 12
  | .jge _ => 13
  | .jbe _ => 14
  | .jmp _ => 15
  | .call _ => 16
  | .ret => 17
  | .pushl _ => 18
  | .popl _ => 19
  | .printr _ => 20
  | .readr _ => 21

/-- The canonical word of a record: `(op << 27) | (ra << 22) | (rb << 17) | imm16`, bit 16 clear (30_encoding R93). -/
def encodeRecord (r : Record) : Word :=
  (r.op.setWidth 32 <<< 27) ||| (r.ra.setWidth 32 <<< 22) ||| (r.rb.setWidth 32 <<< 17) ||| r.imm16.setWidth 32

/-- The record of an instruction, every field its opcode ignores 0 (30_encoding R93). -/
def Instr.record (i : Instr) : Record :=
  match i with
  | .subl ra imm => { op := i.opcode, ra := ra, rb := 0, imm16 := imm }
  | .addlRegReg ra rb => { op := i.opcode, ra := ra, rb := rb, imm16 := 0 }
  | .addlImmReg ra imm => { op := i.opcode, ra := ra, rb := 0, imm16 := imm }
  | .imull ra rb => { op := i.opcode, ra := ra, rb := rb, imm16 := 0 }
  | .shrl ra => { op := i.opcode, ra := ra, rb := 0, imm16 := 0 }
  | .movlRegReg ra rb => { op := i.opcode, ra := ra, rb := rb, imm16 := 0 }
  | .movlDerefReg ra rb imm => { op := i.opcode, ra := ra, rb := rb, imm16 := imm }
  | .movlRegDeref ra rb imm => { op := i.opcode, ra := ra, rb := rb, imm16 := imm }
  | .movlImmReg ra imm8 => { op := i.opcode, ra := ra, rb := 0, imm16 := imm8.setWidth 16 }
  | .cmpl ra rb => { op := i.opcode, ra := ra, rb := rb, imm16 := 0 }
  | .je imm => { op := i.opcode, ra := 0, rb := 0, imm16 := imm }
  | .jl imm => { op := i.opcode, ra := 0, rb := 0, imm16 := imm }
  | .jle imm => { op := i.opcode, ra := 0, rb := 0, imm16 := imm }
  | .jge imm => { op := i.opcode, ra := 0, rb := 0, imm16 := imm }
  | .jbe imm => { op := i.opcode, ra := 0, rb := 0, imm16 := imm }
  | .jmp imm => { op := i.opcode, ra := 0, rb := 0, imm16 := imm }
  | .call imm => { op := i.opcode, ra := 0, rb := 0, imm16 := imm }
  | .ret => { op := i.opcode, ra := 0, rb := 0, imm16 := 0 }
  | .pushl ra => { op := i.opcode, ra := ra, rb := 0, imm16 := 0 }
  | .popl ra => { op := i.opcode, ra := ra, rb := 0, imm16 := 0 }
  | .printr ra => { op := i.opcode, ra := ra, rb := 0, imm16 := 0 }
  | .readr ra => { op := i.opcode, ra := ra, rb := 0, imm16 := 0 }

/-- The canonical word of an instruction (30_encoding R93). -/
def encode (i : Instr) : Word := encodeRecord i.record

/-- The bits a row of the opcode table uses: the opcode, then the letters a, b and i of its `encoding` (30_encoding
R84, R85, R87). Every other bit is a don't-care bit (R89). -/
def Instr.usedMask : Instr → Word
  | .subl _ _ => 0xFFC0FFFF
  | .addlRegReg _ _ => 0xFFFE0000
  | .addlImmReg _ _ => 0xFFC0FFFF
  | .imull _ _ => 0xFFFE0000
  | .shrl _ => 0xFFC00000
  | .movlRegReg _ _ => 0xFFFE0000
  | .movlDerefReg _ _ _ => 0xFFFEFFFF
  | .movlRegDeref _ _ _ => 0xFFFEFFFF
  | .movlImmReg _ _ => 0xFFC000FF
  | .cmpl _ _ => 0xFFFE0000
  | .je _ => 0xF800FFFF
  | .jl _ => 0xF800FFFF
  | .jle _ => 0xF800FFFF
  | .jge _ => 0xF800FFFF
  | .jbe _ => 0xF800FFFF
  | .jmp _ => 0xF800FFFF
  | .call _ => 0xF800FFFF
  | .ret => 0xF8000000
  | .pushl _ => 0xFFC00000
  | .popl _ => 0xFFC00000
  | .printr _ => 0xFFC00000
  | .readr _ => 0xFFC00000

/-- The instruction the decoder reads from the table's word `w` of `nbits` bits. The core receives an instruction as
one 32-bit value with no byte order (20_memory R62), so the word goes to the decoder as it is. -/
def decodeTableWord (nbits w : Nat) : Option Instr :=
  (decode (BitVec.ofNat 32 (w % 2 ^ nbits))).toOption

end Sys2Proof
end

