-- ==== Sys2Proof/Machine/Fetch.lean ====
section
/-! DEFINITION. The fetch and its checks (spec/30_encoding.md R95), the opcode check's fault (R97), and placing a word
where the next fetch reads it. -/

namespace Sys2Proof.Machine

/-- What a fetch finds (30_encoding R95). -/
inductive Fetch where
  /-- `pc = 4·N`: the normal end of the stream. -/
  | endOfStream
  /-- The instruction word `IMEM[pc / 4]`. -/
  | word (w : Word)
  /-- A fetch fault. -/
  | fault (c : FaultCause)
  deriving DecidableEq, Repr

/-- The fetch checks in their order: `pc = 4·N`, then `pc > 4·N`, then `pc mod 4`, then the word (30_encoding R95). -/
def fetch (s : State) : Fetch :=
  if h0 : s.pc.toNat = 4 * s.imem.length then .endOfStream
  else if h : s.pc.toNat > 4 * s.imem.length then .fault .fetchOutOfRange
  else if s.pc.toNat % 4 ≠ 0 then .fault .fetchMisaligned
  else .word (s.imem[s.pc.toNat / 4]'(by omega))

/-- The fault an undecodable word raises when it is executed (30_encoding R97, 60_exceptions R232). -/
def decodeFault : DecodeError → FaultCause
  | .illegalOpcode op => .illegalOpcode op

/-- The word index the next fetch reads: `pc / 4` where pc is a multiple of 4 below 4·2^28, else 0. -/
def State.fetchIndex (s : State) : Nat :=
  if s.pc.toNat % 4 = 0 ∧ s.pc.toNat / 4 < maxWords then s.pc.toNat / 4 else 0

/-- A word list with word k replaced; words missing below k are 0. -/
def placeWord : List Word → Nat → Word → List Word
  | [], 0, w => [w]
  | [], k + 1, w => 0 :: placeWord [] k w
  | _ :: ws, 0, w => w :: ws
  | v :: ws, k + 1, w => v :: placeWord ws k w

/-- The state whose next step fetches w: w is stored at `fetchIndex`, the pc points there and the core runs. -/
def State.placeAtFetch (s : State) (w : Word) : State :=
  { s with
    status := .running
    pc := BitVec.ofNat 32 (4 * s.fetchIndex)
    imem := placeWord s.imem s.fetchIndex w }

end Sys2Proof.Machine
end

