-- ==== Sys2Proof/Machine/Step.lean ====
section
/-! DEFINITION. The whole step (spec/30_encoding.md R94 to R101) and the host's way to place a word to be run. -/

namespace Sys2Proof.Machine

/-- One step (30_encoding R100). A Halted or Faulted core takes no step (R94): the answer then is the refusal `halted`
or the fault `faulted`. A Running core at `pc = 4·N` halts; a fetch fault or an illegal opcode is taken as a fault, a
next state (60_exceptions R238); otherwise the decoded instruction runs. -/
def step (s : State) : Host.Outcome State Fault Refusal :=
  match s.status with
  | .halted => .refused .halted
  | .faulted info => .fault (.faulted info)
  | .running =>
    match fetch s with
    | .endOfStream => .next s.halt
    | .fault c => raise c s
    | .word w =>
      match decode w with
      | .error e => raise (decodeFault e) s
      | .ok i => exec i s

/-- s with the instruction word of bits w stored where `step` fetches next (log 2). It stands for the host's program
load (70_reset R271): IMEM is read-only for the machine itself (20_memory R61). -/
def State.withFetchWord (s : State) (nbits w : Nat) : State :=
  s.placeAtFetch (BitVec.ofNat 32 (w % 2 ^ nbits))

end Sys2Proof.Machine
end

