-- ==== Sys2Proof/Machine/HostText.lean ====
section
/-! DEFINITION. The host's text: the line of a printr and the parsing of a readr's token (spec/44_io.md R213, R214).
Outside the core by spec/00_scope.md R4 (b); no step uses it. Texts are lists of characters. -/

namespace Sys2Proof.Machine

/-- `<decimal>`: s32(v) in base 10, a leading `-` when negative (44_io R213). -/
def signedDecimal (v : Word) : List Char :=
  if v.toInt < 0 then '-' :: Nat.toDigits 10 v.toInt.natAbs else Nat.toDigits 10 v.toInt.natAbs

/-- The line the host writes for an emitted value: `<decimal> (0x<hex>)` and a newline, the hexadecimal in lowercase
with no leading zeros (44_io R213). -/
def printrLine (v : Word) : List Char :=
  signedDecimal v ++ [' ', '(', '0', 'x'] ++ Nat.toDigits 16 v.toNat ++ [')', '\n']

/-- The value of a decimal digit. -/
def decDigit (c : Char) : Option Nat := if '0' ≤ c ∧ c ≤ '9' then some (c.toNat - 48) else none

/-- The value of a run of digits in a base, after an accumulated value; none at the first character that is no digit. -/
def digitsFrom (digit : Char → Option Nat) (base : Nat) : Nat → List Char → Option Nat
  | acc, [] => some acc
  | acc, c :: cs =>
    match digit c with
    | some d => digitsFrom digit base (base * acc + d) cs
    | none => none

/-- One or more digits. -/
def digits (digit : Char → Option Nat) (base : Nat) (cs : List Char) : Option Nat :=
  if cs.isEmpty then none else digitsFrom digit base 0 cs

/-- An optional `+` or `-` followed by one or more decimal digits (44_io R214). -/
def signedToken : List Char → Option Int
  | '-' :: cs => (digits decDigit 10 cs).map fun n => -(n : Int)
  | '+' :: cs => (digits decDigit 10 cs).map fun n => (n : Int)
  | cs => (digits decDigit 10 cs).map fun n => (n : Int)

/-- The host's answer to a token: its value if it lies in −2^31 to 2^31 − 1, else `fail` (44_io R214). -/
def tokenAnswer (token : List Char) : Answer :=
  match signedToken token with
  | some z => if -2147483648 ≤ z ∧ z ≤ 2147483647 then .value (BitVec.ofInt 32 z) else .fail
  | none => .fail

/-- The host's answer to one readr and the text left: whitespace is skipped and the next whitespace-delimited token is
taken; at the end of input there is no token and the answer is `fail` (44_io R214; log 14). -/
def hostAnswer (text : List Char) : Answer × List Char :=
  let t := text.dropWhile Char.isWhitespace
  (tokenAnswer (t.takeWhile fun c => !c.isWhitespace), t.dropWhile fun c => !c.isWhitespace)

/-- The host's answers to the first k readrs of a run. -/
def hostAnswers : Nat → List Char → List Answer
  | 0, _ => []
  | k + 1, text => (hostAnswer text).1 :: hostAnswers k (hostAnswer text).2

end Sys2Proof.Machine
end

