-- ==== Sys2Proof/Machine/Load.lean ====
section
/-! DEFINITION. The host's program load and the state a run starts in (spec/70_reset_and_hazards.md R270, R271). -/

namespace Sys2Proof.Machine

/-- Why a load fails; the core then never starts and the exit status is 1 (70_reset R271). -/
inductive LoadError where
  /-- The program's length in bytes is not a multiple of 4 (70_reset R271). Safe: no run starts. -/
  | lengthNotMultipleOf4 (length : Nat)
  /-- N would exceed 2^28, which the spec forbids without naming an outcome (70_reset R271; log 5). Safe: no run
  starts. -/
  | tooLong (n : Nat)
  deriving DecidableEq, Repr

/-- The exit status of a load error is 1 (70_reset R271, R272). -/
def LoadError.exitStatus (_ : LoadError) : Nat := 1

/-- The instruction word of bytes 4k, 4k+1, 4k+2, 4k+3 in the order `file_byte_order` (70_reset R271). -/
def fileWord (o : ByteOrder) (b0 b1 b2 b3 : Byte) : Word :=
  match o with
  | .little => wordOf b3 b2 b1 b0
  | .big => wordOf b0 b1 b2 b3

/-- The words of a byte sequence, four bytes each (70_reset R271). -/
def wordsOf (o : ByteOrder) : List Byte → List Word
  | b0 :: b1 :: b2 :: b3 :: rest => fileWord o b0 b1 b2 b3 :: wordsOf o rest
  | _ => []

/-- Load: a length that is no multiple of 4 is a load error, otherwise N = L / 4 words, at most 2^28
(70_reset R271). -/
def loadProgram (o : ByteOrder) (bytes : List Byte) : Except LoadError (List Word) :=
  if bytes.length % 4 ≠ 0 then .error (.lengthNotMultipleOf4 bytes.length)
  else if bytes.length / 4 > maxWords then .error (.tooLong (bytes.length / 4))
  else .ok (wordsOf o bytes)

/-- Load, then reset: the state a run of the program starts in, under the given parameters (70_reset R270, R273). -/
def State.boot (c : Config) (bytes : List Byte) : Except LoadError State := do
  let ws ← loadProgram c.fileByteOrder bytes
  return { State.reset with imem := ws, config := c }

end Sys2Proof.Machine
end

