-- ==== Sys2Proof/Safety.lean ====
section
/-! DEFINITION. Runs, their observation (spec/60_exceptions.md R242), what a safe run is, the invariant of the machine,
and the words in which frames are stated. -/

namespace Sys2Proof.Machine

/-- The state after at most k steps; a core that takes no step stays as it is (30_encoding R94). -/
def State.run : Nat → State → State
  | 0, s => s
  | k + 1, s =>
    match step s with
    | .next t => State.run k t
    | .fault _ => s
    | .refused _ => s

/-- Instructions executed one after another with no fetch between them, as long as the core is Running: for statements
about an instruction sequence (43_stack R196). -/
def execAll : List Instr → State → Result
  | [], s => .next s
  | i :: is, s =>
    match exec i s with
    | .next t => if t.status = .running then execAll is t else .next t
    | .fault r => .fault r
    | .refused r => .refused r

/-- What a run that has ended is observed by (60_exceptions R242). -/
structure Observation where
  status : RunStatus
  output : List Word
  x : Vector Word 17
  dmem : Memory
  pc : Word
  deriving DecidableEq, Repr

/-- The observation of a core that is no longer Running (60_exceptions R242). -/
def State.observe (s : State) : Option Observation :=
  match s.status with
  | .running => none
  | .halted => some { status := s.status, output := s.output, x := s.x, dmem := s.dmem, pc := s.pc }
  | .faulted _ => some { status := s.status, output := s.output, x := s.x, dmem := s.dmem, pc := s.pc }

/-- The status is not Faulted. -/
def State.noFault (s : State) : Bool :=
  match s.status with
  | .running => true
  | .halted => true
  | .faulted _ => false

/-- A safe run of k steps: no state on it is Faulted. -/
def State.safeFor (k : Nat) (s : State) : Prop := ∀ j, j ≤ k → (s.run j).noFault = true

/-- The invariant every step keeps: DMEM in canonical form inside its 1024 bytes (20_memory R51), FLAGS with no bit set
but CF, ZF, SF, OF (10_state R28), and at most 2^28 instruction words (70_reset R271). -/
abbrev State.Inv (s : State) : Prop :=
  s.dmem.wf ∧ s.flags &&& ~~~flagsMask = 0 ∧ s.imem.length ≤ maxWords

/-- Every slot of the register file (FLAGS is slot 16) but those listed reads as before. -/
def State.sameSlotsBut (ks : List Slot) (s t : State) : Prop := ∀ i : Slot, i ∉ ks → t.slot i = s.slot i

/-- Every byte of DMEM reads as before. -/
def State.sameMemory (s t : State) : Prop := ∀ a : Nat, t.dmem.read a = s.dmem.read a

/-- Every byte of DMEM outside the n bytes from address a reads as before. -/
def State.sameMemoryBut (a : Int) (n : Width) (s t : State) : Prop :=
  ∀ k : Nat, ((k : Int) < a ∨ a + n.bytes ≤ k) → t.dmem.read k = s.dmem.read k

/-- The output history and the host's answers are as before. -/
def State.samePorts (s t : State) : Prop := t.output = s.output ∧ t.input = s.input

/-- The status, the instruction memory and the parameters are as before. -/
def State.sameRun (s t : State) : Prop := t.status = s.status ∧ t.imem = s.imem ∧ t.config = s.config

/-- The state in which s has taken a fault of cause c: the status alone differs, and the information holds the cause,
the pc and the word at pc (60_exceptions R231, R238). -/
def State.faultedWith (s : State) (c : FaultCause) : State :=
  { s with status := .faulted { cause := c, pc := s.pc, word := s.fetched } }

end Sys2Proof.Machine
end

