-- ==== Sys2Proof/Certificates/Slice0/Obligations.lean ====
section
/-! DEFINITION. The statements for the provers. OBLIGATIONS.json lists them. A statement about an instruction has up to
three clauses: the words of its row decode to it, its effect and frame where it completes, and where it takes a fault.
A register field below 16 is written as the general register ⟨its value, the proof⟩. -/

open Sys2Proof Sys2Proof.Machine

/-! ## Encoding -/

/-- Decoding the canonical word of any instruction gives the instruction back, whatever its fields hold
(30_encoding R81, R87, R93). -/
def Obligations.DecodeOfEncodeIsTheInstruction : Prop :=
  ∀ i : Instr, decode (encode i) = .ok i

/-- Bit 16 is never read, and re-encoding a decoded record gives the word back with bit 16 cleared (30_encoding R83). -/
def Obligations.ReencodingClearsBit16Alone : Prop :=
  ∀ w : Word,
    encodeRecord (decodeRecord w) = w &&& 0xFFFEFFFF#32 ∧
    decodeRecord (w ^^^ 0x00010000#32) = decodeRecord w ∧
    decode (w ^^^ 0x00010000#32) = decode w

/-- A word that decodes to i agrees with i's canonical word on every bit that i's row uses; every other bit is a
don't-care bit (30_encoding R84, R85, R89). -/
def Obligations.DecodedWordIsCanonicalOnUsedBits : Prop :=
  ∀ (w : Word) (i : Instr), decode w = .ok i → encode i = w &&& i.usedMask

/-- Opcodes 0 to 21 decode to an instruction of that opcode; 22 to 31 are rejected by name (30_encoding R87, R88). -/
def Obligations.DecodeAnswersByOpcode : Prop :=
  ∀ w : Word,
    ((w.extractLsb' 27 5).toNat ≤ 21 → ∃ i, decode w = .ok i ∧ i.opcode = w.extractLsb' 27 5) ∧
    (21 < (w.extractLsb' 27 5).toNat → decode w = .error (.illegalOpcode (w.extractLsb' 27 5)))

/-- Words written out from the encoding decode to the instructions they stand for (30_encoding R81, R87). -/
def Obligations.SampleWordsDecode : Prop :=
  decode 0b00010_00010_00000_0_1111111111111111#32 = .ok (.addlImmReg 2 0xFFFF) ∧
  decode 0b00110_00001_00010_0_0000000000000011#32 = .ok (.movlDerefReg 1 2 3) ∧
  decode 0b01001_00000_00001_0_0000000000000000#32 = .ok (.cmpl 0 1) ∧
  decode 0b01111_00000_00000_0_1111111111101100#32 = .ok (.jmp 0xFFEC) ∧
  decode 0b10010_00110_00000_0_0000000000000000#32 = .ok (.pushl 6) ∧
  decode 0b10101_00010_00000_0_0000000000000000#32 = .ok (.readr 2)

/-- The widening of the immediate: a signed value under sext, an unsigned value under zext (30_encoding R84). -/
def Obligations.ImmediateWidensByParameter : Prop :=
  ∀ (s : State) (imm : Imm16) (imm8 : Byte),
    (s.config.immExt = .sext → (s.simm imm).toInt = imm.toInt) ∧
    (s.config.immExt = .zext → (s.simm imm).toNat = imm.toNat) ∧
    (zextImm8 imm8).toNat = imm8.toNat

/-! ## The instruction cycle, faults and the end of a run -/

/-- Where a Running core's pc is at a word that decodes, the step is the execution of that instruction, legal register
fields or not; nothing else happens in the step (30_encoding R100). -/
def Obligations.StepRunsTheDecodedInstruction : Prop :=
  ∀ (s : State) (w : Word) (i : Instr),
    s.status = .running → s.pc.toNat % 4 = 0 → s.imem[s.pc.toNat / 4]? = some w → decode w = .ok i →
    step s = exec i s

/-- The fetch checks, in their order (30_encoding R95). -/
def Obligations.FetchChecksInOrder : Prop :=
  ∀ s : State, s.status = .running →
    if s.pc.toNat = 4 * s.imem.length then step s = .next { s with status := .halted }
    else if 4 * s.imem.length < s.pc.toNat then step s = .next (s.faultedWith .fetchOutOfRange)
    else if s.pc.toNat % 4 ≠ 0 then step s = .next (s.faultedWith .fetchMisaligned)
    else ∃ w, s.imem[s.pc.toNat / 4]? = some w ∧ fetch s = .word w

/-- A fetched word with an opcode above 21 faults when it is executed, recording pc, word and op (30_encoding R97). -/
def Obligations.IllegalOpcodeFaultsAtExecution : Prop :=
  ∀ (s : State) (w : Word),
    s.status = .running → s.pc.toNat % 4 = 0 → s.imem[s.pc.toNat / 4]? = some w → 21 < (w.extractLsb' 27 5).toNat →
    step s = .next { s with
      status := .faulted { cause := .illegalOpcode (w.extractLsb' 27 5), pc := s.pc, word := some w } }

/-- The register check: the first used field above 15, ra before rb, faults the instruction with nothing else changed;
where every used field is legal the instruction never takes IllegalRegister (30_encoding R98). -/
def Obligations.RegisterFieldsAreCheckedRaFirst : Prop :=
  ∀ (i : Instr) (s : State),
    (∀ f r, i.usedFields.find? (fun p => decide (15 < p.2.toNat)) = some (f, r) →
      exec i s = .next (s.faultedWith (.illegalRegister f r))) ∧
    (i.usedFields.find? (fun p => decide (15 < p.2.toNat)) = none → s.status = .running →
      ∀ t info f r, exec i s = .next t → t.status = .faulted info → info.cause ≠ .illegalRegister f r)

/-- The first five checks of 60_exceptions R240 in their order: the first one that fails is the one reported. Where all
five pass, the last branch lists the outcomes that remain; when each of them happens is said by the statements of the
instructions that access memory or input. A ret at SP = 1024 never faults. -/
def Obligations.FaultPriorityIsTheOrderOfChecks : Prop :=
  ∀ s : State, s.status = .running → s.pc.toNat ≠ 4 * s.imem.length →
    if 4 * s.imem.length < s.pc.toNat then step s = .next (s.faultedWith .fetchOutOfRange)
    else if s.pc.toNat % 4 ≠ 0 then step s = .next (s.faultedWith .fetchMisaligned)
    else ∃ w, s.imem[s.pc.toNat / 4]? = some w ∧
      if 21 < (w.extractLsb' 27 5).toNat then step s = .next (s.faultedWith (.illegalOpcode (w.extractLsb' 27 5)))
      else ∃ i, decode w = .ok i ∧
        match i.usedFields.find? (fun p => decide (15 < p.2.toNat)) with
        | some (f, r) => step s = .next (s.faultedWith (.illegalRegister f r))
        | none => ∃ t, step s = .next t ∧ (i = .ret → s.sp = 1024 → t = { s with status := .halted }) ∧
            (t.status = .running ∨ t.status = .halted ∨ (∃ a n, t = s.faultedWith (.memoryOutOfRange a n)) ∨
              (t = s.faultedWith .inputError ∧ ∃ ra, i = .readr ra))

/-- A Halted or Faulted core takes no step (30_encoding R94). -/
def Obligations.FinalStatusTakesNoStep : Prop :=
  ∀ s t : State, step s = .next t → s.status = .running

/-- Every Running core has a next state, and every instruction answers one in every state: no instruction is refused,
and a fault is a state (60_exceptions R238). That a readr with no answer waits in its own state is the model's choice
(log 6). -/
def Obligations.RunningCoreAlwaysHasANextState : Prop :=
  (∀ s : State, s.status = .running → ∃ t, step s = .next t) ∧ ∀ (i : Instr) (s : State), ∃ t, exec i s = .next t

/-- Faults are precise: a step that ends Faulted changes the status alone, keeps the faulting instruction's pc, records
it, shows exit status 1, and nothing runs after it (60_exceptions R238). -/
def Obligations.FaultsArePrecise : Prop :=
  ∀ (s t : State) (info : FaultInfo), step s = .next t → t.status = .faulted info →
    t = { s with status := .faulted info } ∧ info.pc = s.pc ∧ t.status.exitStatus = some 1 ∧ ∀ u, step t ≠ .next u

/-- A run ends normally in exactly two cases: the fetch finds pc = 4N, or a ret executes with SP = 1024; nothing but the
status changes and the exit status is 0 (60_exceptions R241). -/
def Obligations.NormalEndIsEndOfStreamOrRetAtSentinel : Prop :=
  ∀ s t : State, step s = .next t →
    (t.status = .halted ↔
      s.pc.toNat = 4 * s.imem.length ∨
      (s.pc.toNat % 4 = 0 ∧ ∃ w, s.imem[s.pc.toNat / 4]? = some w ∧ (w.extractLsb' 27 5).toNat = 17 ∧ s.sp = 1024)) ∧
    (t.status = .halted → t = { s with status := .halted } ∧ t.status.exitStatus = some 0)

/-- The reset state of a loaded program: SP 1024, every other slot 0, DMEM all 0, pc 0, the loaded words, Running, no
output (10_state R38). -/
def Obligations.ResetValues : Prop :=
  ∀ (c : Config) (bytes : List Byte) (s : State), State.boot c bytes = .ok s →
    s.slot 6 = 0x00000400#32 ∧ (∀ i : Slot, i ≠ 6 → s.slot i = 0) ∧ (∀ a : Nat, s.dmem.read a = 0) ∧ s.pc = 0 ∧
    loadProgram c.fileByteOrder bytes = .ok s.imem ∧ s.status = .running ∧ s.output = []

/-- Load: a length that is no multiple of 4 is a load error with exit status 1; otherwise, up to 2^28 words, word k is
assembled from bytes 4k to 4k+3 in `file_byte_order` (70_reset R271). -/
def Obligations.LoadAssemblesInstructionWords : Prop :=
  ∀ (c : Config) (bytes : List Byte),
    (bytes.length % 4 ≠ 0 → ∃ e, State.boot c bytes = .error e ∧ e.exitStatus = 1) ∧
    (bytes.length % 4 = 0 → bytes.length / 4 ≤ 2 ^ 28 →
      ∃ s, State.boot c bytes = .ok s ∧ s.imem.length = bytes.length / 4 ∧
        ∀ k, k < bytes.length / 4 → ∃ b0 b1 b2 b3 : Byte,
          bytes[4 * k]? = some b0 ∧ bytes[4 * k + 1]? = some b1 ∧ bytes[4 * k + 2]? = some b2 ∧
          bytes[4 * k + 3]? = some b3 ∧
          (c.fileByteOrder = .little → s.imem[k]? = some (b3 ++ b2 ++ b1 ++ b0)) ∧
          (c.fileByteOrder = .big → s.imem[k]? = some (b0 ++ b1 ++ b2 ++ b3)))

/-! ## Arithmetic (40_arithmetic) -/

/-- subl (40_arithmetic R121). -/
def Obligations.SublSubtractsImmediate : Prop :=
  (∀ w : Word, w &&& 0xF8000000#32 = 0x00000000#32 → decode w = .ok (.subl (w.extractLsb' 22 5) (w.extractLsb' 0 16))) ∧
  ∀ (s : State) (ra : Field5) (imm : Imm16),
    (∀ ha : ra.toNat < 16, ∃ t, exec (.subl ra imm) s = .next t ∧
      t.gpr ⟨ra.toNat, ha⟩ = s.gpr ⟨ra.toNat, ha⟩ - s.simm imm ∧ t.pc = s.pc + 4 ∧
      s.sameSlotsBut [slotOf ⟨ra.toNat, ha⟩] t ∧ s.sameMemory t ∧ s.samePorts t ∧ s.sameRun t) ∧
    (15 < ra.toNat → exec (.subl ra imm) s = .next (s.faultedWith (.illegalRegister .ra ra)))

/-- addl_reg_reg (40_arithmetic R122). -/
def Obligations.AddlRegRegAddsRaToRb : Prop :=
  (∀ w : Word, w &&& 0xF8000000#32 = 0x08000000#32 →
    decode w = .ok (.addlRegReg (w.extractLsb' 22 5) (w.extractLsb' 17 5))) ∧
  ∀ (s : State) (ra rb : Field5),
    (∀ (ha : ra.toNat < 16) (hb : rb.toNat < 16), ∃ t, exec (.addlRegReg ra rb) s = .next t ∧
      t.gpr ⟨rb.toNat, hb⟩ = s.gpr ⟨rb.toNat, hb⟩ + s.gpr ⟨ra.toNat, ha⟩ ∧ t.pc = s.pc + 4 ∧
      s.sameSlotsBut [slotOf ⟨rb.toNat, hb⟩] t ∧ s.sameMemory t ∧ s.samePorts t ∧ s.sameRun t) ∧
    (15 < ra.toNat → exec (.addlRegReg ra rb) s = .next (s.faultedWith (.illegalRegister .ra ra))) ∧
    (ra.toNat < 16 → 15 < rb.toNat →
      exec (.addlRegReg ra rb) s = .next (s.faultedWith (.illegalRegister .rb rb)))

/-- addl_imm_reg (40_arithmetic R123). -/
def Obligations.AddlImmRegAddsImmediate : Prop :=
  (∀ w : Word, w &&& 0xF8000000#32 = 0x10000000#32 →
    decode w = .ok (.addlImmReg (w.extractLsb' 22 5) (w.extractLsb' 0 16))) ∧
  ∀ (s : State) (ra : Field5) (imm : Imm16),
    (∀ ha : ra.toNat < 16, ∃ t, exec (.addlImmReg ra imm) s = .next t ∧
      t.gpr ⟨ra.toNat, ha⟩ = s.gpr ⟨ra.toNat, ha⟩ + s.simm imm ∧ t.pc = s.pc + 4 ∧
      s.sameSlotsBut [slotOf ⟨ra.toNat, ha⟩] t ∧ s.sameMemory t ∧ s.samePorts t ∧ s.sameRun t) ∧
    (15 < ra.toNat → exec (.addlImmReg ra imm) s = .next (s.faultedWith (.illegalRegister .ra ra)))

/-- imull: the low 32 bits of the exact product, the same whether the operands are read signed or unsigned
(40_arithmetic R124). -/
def Obligations.ImullKeepsLowHalfOfProduct : Prop :=
  (∀ w : Word, w &&& 0xF8000000#32 = 0x18000000#32 →
    decode w = .ok (.imull (w.extractLsb' 22 5) (w.extractLsb' 17 5))) ∧
  ∀ (s : State) (ra rb : Field5),
    (∀ (ha : ra.toNat < 16) (hb : rb.toNat < 16), ∃ t, exec (.imull ra rb) s = .next t ∧
      t.gpr ⟨rb.toNat, hb⟩ = BitVec.ofInt 32 ((s.gpr ⟨rb.toNat, hb⟩).toInt * (s.gpr ⟨ra.toNat, ha⟩).toInt) ∧
      t.gpr ⟨rb.toNat, hb⟩ = BitVec.ofNat 32 ((s.gpr ⟨rb.toNat, hb⟩).toNat * (s.gpr ⟨ra.toNat, ha⟩).toNat) ∧
      t.pc = s.pc + 4 ∧
      s.sameSlotsBut [slotOf ⟨rb.toNat, hb⟩] t ∧ s.sameMemory t ∧ s.samePorts t ∧ s.sameRun t) ∧
    (15 < ra.toNat → exec (.imull ra rb) s = .next (s.faultedWith (.illegalRegister .ra ra))) ∧
    (ra.toNat < 16 → 15 < rb.toNat → exec (.imull ra rb) s = .next (s.faultedWith (.illegalRegister .rb rb)))

/-- shrl: a logical shift by 1, the unsigned half, bit 0 discarded (40_arithmetic R125). -/
def Obligations.ShrlHalvesUnsigned : Prop :=
  (∀ w : Word, w &&& 0xF8000000#32 = 0x20000000#32 → decode w = .ok (.shrl (w.extractLsb' 22 5))) ∧
  ∀ (s : State) (ra : Field5),
    (∀ ha : ra.toNat < 16, ∃ t, exec (.shrl ra) s = .next t ∧
      (t.gpr ⟨ra.toNat, ha⟩).toNat = (s.gpr ⟨ra.toNat, ha⟩).toNat / 2 ∧ t.pc = s.pc + 4 ∧
      s.sameSlotsBut [slotOf ⟨ra.toNat, ha⟩] t ∧ s.sameMemory t ∧ s.samePorts t ∧ s.sameRun t) ∧
    (15 < ra.toNat → exec (.shrl ra) s = .next (s.faultedWith (.illegalRegister .ra ra)))

/-! ## Moves (41_move) -/

/-- movl_reg_reg (41_move R141). -/
def Obligations.MovlRegRegCopiesRaToRb : Prop :=
  (∀ w : Word, w &&& 0xF8000000#32 = 0x28000000#32 →
    decode w = .ok (.movlRegReg (w.extractLsb' 22 5) (w.extractLsb' 17 5))) ∧
  ∀ (s : State) (ra rb : Field5),
    (∀ (ha : ra.toNat < 16) (hb : rb.toNat < 16), ∃ t, exec (.movlRegReg ra rb) s = .next t ∧
      t.gpr ⟨rb.toNat, hb⟩ = s.gpr ⟨ra.toNat, ha⟩ ∧ t.pc = s.pc + 4 ∧
      s.sameSlotsBut [slotOf ⟨rb.toNat, hb⟩] t ∧ s.sameMemory t ∧ s.samePorts t ∧ s.sameRun t) ∧
    (15 < ra.toNat → exec (.movlRegReg ra rb) s = .next (s.faultedWith (.illegalRegister .ra ra))) ∧
    (ra.toNat < 16 → 15 < rb.toNat →
      exec (.movlRegReg ra rb) s = .next (s.faultedWith (.illegalRegister .rb rb)))

/-- movl_deref_reg: the byte at the exact address x[ra] + simm, zero-extended, into rb; outside 0 to 1023 the fault
(41_move R142). -/
def Obligations.MovlDerefRegLoadsByte : Prop :=
  (∀ w : Word, w &&& 0xF8000000#32 = 0x30000000#32 →
    decode w = .ok (.movlDerefReg (w.extractLsb' 22 5) (w.extractLsb' 17 5) (w.extractLsb' 0 16))) ∧
  ∀ (s : State) (ra rb : Field5) (imm : Imm16),
    (∀ (ha : ra.toNat < 16) (hb : rb.toNat < 16) (a : Int), a = (s.gpr ⟨ra.toNat, ha⟩).toInt + (s.simm imm).toInt →
      (0 ≤ a → a ≤ 1023 → ∃ t, exec (.movlDerefReg ra rb imm) s = .next t ∧
        (t.gpr ⟨rb.toNat, hb⟩).toNat = (s.dmem.read a.toNat).toNat ∧ t.pc = s.pc + 4 ∧
        s.sameSlotsBut [slotOf ⟨rb.toNat, hb⟩] t ∧ s.sameMemory t ∧ s.samePorts t ∧ s.sameRun t) ∧
      (a < 0 ∨ 1023 < a →
        exec (.movlDerefReg ra rb imm) s = .next (s.faultedWith (.memoryOutOfRange a .byte)))) ∧
    (15 < ra.toNat → exec (.movlDerefReg ra rb imm) s = .next (s.faultedWith (.illegalRegister .ra ra))) ∧
    (ra.toNat < 16 → 15 < rb.toNat →
      exec (.movlDerefReg ra rb imm) s = .next (s.faultedWith (.illegalRegister .rb rb)))

/-- movl_reg_deref: the low byte of x[ra] at the exact address x[rb] + simm, every other byte as before; outside 0 to
1023 the fault (41_move R143). -/
def Obligations.MovlRegDerefStoresByte : Prop :=
  (∀ w : Word, w &&& 0xF8000000#32 = 0x38000000#32 →
    decode w = .ok (.movlRegDeref (w.extractLsb' 22 5) (w.extractLsb' 17 5) (w.extractLsb' 0 16))) ∧
  ∀ (s : State) (ra rb : Field5) (imm : Imm16),
    (∀ (ha : ra.toNat < 16) (hb : rb.toNat < 16) (a : Int), a = s.effAddr ⟨rb.toNat, hb⟩ imm →
      a = (s.gpr ⟨rb.toNat, hb⟩).toInt + (s.simm imm).toInt ∧
      (0 ≤ a → a ≤ 1023 → ∃ t, exec (.movlRegDeref ra rb imm) s = .next t ∧
        t.dmem.read a.toNat = (s.gpr ⟨ra.toNat, ha⟩).extractLsb' 0 8 ∧ s.sameMemoryBut a .byte t ∧
        t.pc = s.pc + 4 ∧ s.sameSlotsBut [] t ∧ s.samePorts t ∧ s.sameRun t) ∧
      (a < 0 ∨ 1023 < a →
        exec (.movlRegDeref ra rb imm) s = .next (s.faultedWith (.memoryOutOfRange a .byte)))) ∧
    (15 < ra.toNat → exec (.movlRegDeref ra rb imm) s = .next (s.faultedWith (.illegalRegister .ra ra))) ∧
    (ra.toNat < 16 → 15 < rb.toNat →
      exec (.movlRegDeref ra rb imm) s = .next (s.faultedWith (.illegalRegister .rb rb)))

/-- movl_imm_reg: the low 8 bits of the immediate, zero-extended, bits 15 to 8 ignored (41_move R144). -/
def Obligations.MovlImmRegLoadsEightBits : Prop :=
  (∀ w : Word, w &&& 0xF8000000#32 = 0x40000000#32 →
    decode w = .ok (.movlImmReg (w.extractLsb' 22 5) (w.extractLsb' 0 8))) ∧
  ∀ (s : State) (ra : Field5) (imm8 : Byte),
    (∀ ha : ra.toNat < 16, ∃ t, exec (.movlImmReg ra imm8) s = .next t ∧
      (t.gpr ⟨ra.toNat, ha⟩).toNat = imm8.toNat ∧ t.pc = s.pc + 4 ∧
      s.sameSlotsBut [slotOf ⟨ra.toNat, ha⟩] t ∧ s.sameMemory t ∧ s.samePorts t ∧ s.sameRun t) ∧
    (15 < ra.toNat → exec (.movlImmReg ra imm8) s = .next (s.faultedWith (.illegalRegister .ra ra)))

/-! ## Compare and branch (42_compare_branch) -/

/-- cmpl: all 32 bits of FLAGS, from b − a with a = x[ra] and b = x[rb], each flag by its rule and at its bit; no other
slot changes (42_compare_branch R160 to R163, R165). -/
def Obligations.CmplWritesFlags : Prop :=
  (∀ w : Word, w &&& 0xF8000000#32 = 0x48000000#32 →
    decode w = .ok (.cmpl (w.extractLsb' 22 5) (w.extractLsb' 17 5))) ∧
  ∀ (s : State) (ra rb : Field5),
    (∀ (ha : ra.toNat < 16) (hb : rb.toNat < 16) (a b r : Word), a = s.gpr ⟨ra.toNat, ha⟩ →
      b = s.gpr ⟨rb.toNat, hb⟩ → r = b - a →
      ∃ t, exec (.cmpl ra rb) s = .next t ∧
        (t.flags.getLsbD 0 = true ↔ b.toNat < a.toNat) ∧
        (t.flags.getLsbD 6 = true ↔ a = b) ∧ (t.flags.getLsbD 6 = true ↔ r = 0) ∧
        t.flags.getLsbD 7 = r.getLsbD 31 ∧
        (t.flags.getLsbD 11 = true ↔
          (0 < b.toInt ∧ a.toInt < 0 ∧ r.toInt < 0) ∨ (b.toInt < 0 ∧ 0 < a.toInt ∧ 0 < r.toInt)) ∧
        (∀ k, k ≠ 0 → k ≠ 6 → k ≠ 7 → k ≠ 11 → t.flags.getLsbD k = false) ∧
        t.pc = s.pc + 4 ∧ s.sameSlotsBut [flagsSlot] t ∧ s.sameMemory t ∧ s.samePorts t ∧ s.sameRun t) ∧
    (15 < ra.toNat → exec (.cmpl ra rb) s = .next (s.faultedWith (.illegalRegister .ra ra))) ∧
    (ra.toNat < 16 → 15 < rb.toNat → exec (.cmpl ra rb) s = .next (s.faultedWith (.illegalRegister .rb rb)))

/-- The OF formula differs from the usual signed-overflow test at exactly one pair of operands, a = −2^31 with b = 0,
where it gives 0. The one-pair difference is an inference that 42_compare_branch R164 marks as its own ("derived: from
this rule's formula, checked by enumeration of the sign cases"); that the formula is followed and not the words signed
overflow is DEDUCED (log 20). -/
def Obligations.OverflowFormulaDiffersAtOnePair : Prop :=
  ∀ a b : Word,
    (cmplOF a b = true ↔ (0 < b.toInt ∧ a.toInt < 0 ∧ (b - a).toInt < 0) ∨
      (b.toInt < 0 ∧ 0 < a.toInt ∧ 0 < (b - a).toInt)) ∧
    ((cmplOF a b ≠ ((b.msb != a.msb) && ((b - a).msb != b.msb))) ↔ (a = 0x80000000#32 ∧ b = 0)) ∧
    cmplOF 0x80000000#32 0 = false

/-- je: taken exactly if FLAGS bit 6 is 1; nothing but pc changes (42_compare_branch R167). -/
def Obligations.JeBranchesOnZF : Prop :=
  (∀ w : Word, w &&& 0xF8000000#32 = 0x50000000#32 → decode w = .ok (.je (w.extractLsb' 0 16))) ∧
  ∀ (s : State) (imm : Imm16), exec (.je imm) s = .next { s with
    pc := if s.flags.getLsbD 6 = true then s.pc + 4 + s.simm imm else s.pc + 4 }

/-- jl: taken exactly if FLAGS bits 7 and 11 differ; nothing but pc changes (42_compare_branch R168). -/
def Obligations.JlBranchesOnSFNotOF : Prop :=
  (∀ w : Word, w &&& 0xF8000000#32 = 0x58000000#32 → decode w = .ok (.jl (w.extractLsb' 0 16))) ∧
  ∀ (s : State) (imm : Imm16), exec (.jl imm) s = .next { s with
    pc := if s.flags.getLsbD 7 ≠ s.flags.getLsbD 11 then s.pc + 4 + s.simm imm else s.pc + 4 }

/-- jle: taken exactly if FLAGS bits 7 and 11 differ or bit 6 is 1; nothing but pc changes (42_compare_branch R169). -/
def Obligations.JleBranchesOnSFNotOFOrZF : Prop :=
  (∀ w : Word, w &&& 0xF8000000#32 = 0x60000000#32 → decode w = .ok (.jle (w.extractLsb' 0 16))) ∧
  ∀ (s : State) (imm : Imm16), exec (.jle imm) s = .next { s with
    pc := if s.flags.getLsbD 7 ≠ s.flags.getLsbD 11 ∨ s.flags.getLsbD 6 = true then s.pc + 4 + s.simm imm
      else s.pc + 4 }

/-- jge: taken exactly if FLAGS bits 7 and 11 are equal; nothing but pc changes (42_compare_branch R170). -/
def Obligations.JgeBranchesOnSFIsOF : Prop :=
  (∀ w : Word, w &&& 0xF8000000#32 = 0x68000000#32 → decode w = .ok (.jge (w.extractLsb' 0 16))) ∧
  ∀ (s : State) (imm : Imm16), exec (.jge imm) s = .next { s with
    pc := if s.flags.getLsbD 7 = s.flags.getLsbD 11 then s.pc + 4 + s.simm imm else s.pc + 4 }

/-- jbe: taken exactly if FLAGS bit 0 or bit 6 is 1; nothing but pc changes (42_compare_branch R171). -/
def Obligations.JbeBranchesOnCFOrZF : Prop :=
  (∀ w : Word, w &&& 0xF8000000#32 = 0x70000000#32 → decode w = .ok (.jbe (w.extractLsb' 0 16))) ∧
  ∀ (s : State) (imm : Imm16), exec (.jbe imm) s = .next { s with
    pc := if s.flags.getLsbD 0 = true ∨ s.flags.getLsbD 6 = true then s.pc + 4 + s.simm imm else s.pc + 4 }

/-- jmp: always taken; nothing but pc changes (42_compare_branch R172). -/
def Obligations.JmpAlwaysJumps : Prop :=
  (∀ w : Word, w &&& 0xF8000000#32 = 0x78000000#32 → decode w = .ok (.jmp (w.extractLsb' 0 16))) ∧
  ∀ (s : State) (imm : Imm16), exec (.jmp imm) s = .next { s with pc := s.pc + 4 + s.simm imm }

/-- What each branch tests after `cmpl rA, rB`: the orderings of x[rb] against x[ra], with the exception at
a = −2^31, b = 0. The table is an inference that 42_compare_branch R173 marks as its own ("derived: from rules R161 to
R165 and R167 to R171"), and its exception rests on the OF formula being followed, which is DEDUCED (log 20). -/
def Obligations.BranchesAfterCmplFollowTheOrderings : Prop :=
  ∀ (s : State) (ra rb : Field5) (imm : Imm16) (ha : ra.toNat < 16) (hb : rb.toNat < 16) (a b : Word),
    a = s.gpr ⟨ra.toNat, ha⟩ → b = s.gpr ⟨rb.toNat, hb⟩ →
    ∃ t, exec (.cmpl ra rb) s = .next t ∧
      (∃ u, exec (.je imm) t = .next u ∧ u.pc = if b = a then t.pc + 4 + t.simm imm else t.pc + 4) ∧
      (∃ u, exec (.jl imm) t = .next u ∧
        u.pc = if b.toInt < a.toInt ∨ (a = 0x80000000#32 ∧ b = 0) then t.pc + 4 + t.simm imm else t.pc + 4) ∧
      (∃ u, exec (.jle imm) t = .next u ∧
        u.pc = if b.toInt ≤ a.toInt ∨ (a = 0x80000000#32 ∧ b = 0) then t.pc + 4 + t.simm imm else t.pc + 4) ∧
      (∃ u, exec (.jge imm) t = .next u ∧
        u.pc = if a.toInt ≤ b.toInt ∧ ¬ (a = 0x80000000#32 ∧ b = 0) then t.pc + 4 + t.simm imm else t.pc + 4) ∧
      (∃ u, exec (.jbe imm) t = .next u ∧ u.pc = if b.toNat ≤ a.toNat then t.pc + 4 + t.simm imm else t.pc + 4) ∧
      (∃ u, exec (.jmp imm) t = .next u ∧ u.pc = t.pc + 4 + t.simm imm)

/-! ## Stack (43_stack) -/

/-- call: the return address pc + 4 is stored at SP − 4, SP moves down, pc jumps; outside 4 ≤ SP ≤ 1024 the fault
(43_stack R191). -/
def Obligations.CallPushesReturnAddressAndJumps : Prop :=
  (∀ w : Word, w &&& 0xF8000000#32 = 0x80000000#32 → decode w = .ok (.call (w.extractLsb' 0 16))) ∧
  ∀ (s : State) (imm : Imm16) (a : Int), a = s.pushAddr →
    a = s.sp.toInt - 4 ∧
    (4 ≤ s.sp.toInt → s.sp.toInt ≤ 1024 → ∃ t, exec (.call imm) s = .next t ∧
      t.dmem.readWord s.config.byteOrder a.toNat = s.pc + 4 ∧ s.sameMemoryBut a .word t ∧ t.sp.toInt = a ∧
      t.pc = s.pc + 4 + s.simm imm ∧ s.sameSlotsBut [spSlot] t ∧ s.samePorts t ∧ s.sameRun t) ∧
    (s.sp.toInt < 4 ∨ 1024 < s.sp.toInt → exec (.call imm) s = .next (s.faultedWith (.memoryOutOfRange a .word)))

/-- ret: at SP = 1024 it halts and nothing else changes; otherwise it pops the pc, unchecked; outside 0 ≤ SP ≤ 1020
the fault (43_stack R192). -/
def Obligations.RetHaltsAtSentinelElsePopsPc : Prop :=
  (∀ w : Word, w &&& 0xF8000000#32 = 0x88000000#32 → decode w = .ok .ret) ∧
  ∀ s : State,
    (s.sp = 0x00000400#32 → exec .ret s = .next { s with status := .halted }) ∧
    (0 ≤ s.sp.toInt → s.sp.toInt ≤ 1020 → ∃ t, exec .ret s = .next t ∧
      t.pc = s.dmem.readWord s.config.byteOrder s.sp.toInt.toNat ∧ t.sp.toInt = s.sp.toInt + 4 ∧
      s.sameSlotsBut [spSlot] t ∧ s.sameMemory t ∧ s.samePorts t ∧ s.sameRun t) ∧
    (s.sp ≠ 0x00000400#32 → s.sp.toInt < 0 ∨ 1020 < s.sp.toInt →
      exec .ret s = .next (s.faultedWith (.memoryOutOfRange s.sp.toInt .word)))

/-- pushl: x[ra], or the decremented SP where ra is r6, is stored at SP − 4 and SP moves down; outside 4 ≤ SP ≤ 1024
the fault (43_stack R193). -/
def Obligations.PushlStoresBelowSp : Prop :=
  (∀ w : Word, w &&& 0xF8000000#32 = 0x90000000#32 → decode w = .ok (.pushl (w.extractLsb' 22 5))) ∧
  ∀ (s : State) (ra : Field5),
    (∀ (ha : ra.toNat < 16) (a : Int), a = s.pushAddr →
      a = s.sp.toInt - 4 ∧
      (4 ≤ s.sp.toInt → s.sp.toInt ≤ 1024 → ∃ t, exec (.pushl ra) s = .next t ∧
        t.dmem.readWord s.config.byteOrder a.toNat =
          (if ra = 6 then BitVec.ofInt 32 a else s.gpr ⟨ra.toNat, ha⟩) ∧
        s.sameMemoryBut a .word t ∧ t.sp.toInt = a ∧ t.pc = s.pc + 4 ∧ s.sameSlotsBut [spSlot] t ∧ s.samePorts t ∧
        s.sameRun t) ∧
      (s.sp.toInt < 4 ∨ 1024 < s.sp.toInt →
        exec (.pushl ra) s = .next (s.faultedWith (.memoryOutOfRange a .word)))) ∧
    (15 < ra.toNat → exec (.pushl ra) s = .next (s.faultedWith (.illegalRegister .ra ra)))

/-- popl: the word at SP goes to x[ra] and SP moves up; popl r6 leaves the loaded value plus 4; outside 0 ≤ SP ≤ 1020
the fault (43_stack R194). -/
def Obligations.PoplLoadsFromSp : Prop :=
  (∀ w : Word, w &&& 0xF8000000#32 = 0x98000000#32 → decode w = .ok (.popl (w.extractLsb' 22 5))) ∧
  ∀ (s : State) (ra : Field5),
    (∀ (ha : ra.toNat < 16) (v : Word), v = s.dmem.readWord s.config.byteOrder s.sp.toInt.toNat →
      (0 ≤ s.sp.toInt → s.sp.toInt ≤ 1020 → ∃ t, exec (.popl ra) s = .next t ∧
        (ra ≠ 6 → t.gpr ⟨ra.toNat, ha⟩ = v ∧ t.sp.toInt = s.sp.toInt + 4) ∧ (ra = 6 → t.sp = v + 4) ∧
        t.pc = s.pc + 4 ∧ s.sameSlotsBut [slotOf ⟨ra.toNat, ha⟩, spSlot] t ∧ s.sameMemory t ∧ s.samePorts t ∧
        s.sameRun t) ∧
      (s.sp.toInt < 0 ∨ 1020 < s.sp.toInt →
        exec (.popl ra) s = .next (s.faultedWith (.memoryOutOfRange s.sp.toInt .word)))) ∧
    (15 < ra.toNat → exec (.popl ra) s = .next (s.faultedWith (.illegalRegister .ra ra)))

/-- Pushes of registers other than r6, then as many pops naming them in reverse order, give every slot back, where the
pushes fit (43_stack R196 (a)). -/
def Obligations.PushesThenReversePopsRestoreRegisters : Prop :=
  ∀ (s : State) (rs : List Field5), s.status = .running → (∀ r ∈ rs, r.toNat < 16 ∧ r ≠ 6) →
    4 * (rs.length : Int) ≤ s.sp.toInt → s.sp.toInt ≤ 1024 →
    ∃ t, execAll (rs.map .pushl ++ rs.reverse.map .popl) s = .next t ∧ t.status = .running ∧
      (∀ i : Slot, t.slot i = s.slot i) ∧
      (∀ k : Nat, (k : Int) < s.sp.toInt - 4 * rs.length ∨ s.sp.toInt ≤ k → t.dmem.read k = s.dmem.read k)

/-- `pushl r6; popl r6` restores SP (43_stack R196 (b)). -/
def Obligations.PushSpThenPopSpRestoresSp : Prop :=
  ∀ s : State, s.status = .running → 4 ≤ s.sp.toInt → s.sp.toInt ≤ 1024 →
    ∃ t, execAll [.pushl 6, .popl 6] s = .next t ∧ t.status = .running ∧ ∀ i : Slot, t.slot i = s.slot i

/-- A call whose target holds ret returns to the instruction after the call with SP as it was (43_stack R196 (c)). -/
def Obligations.CallThenRetReturns : Prop :=
  ∀ (s : State) (imm : Imm16), s.status = .running → 4 ≤ s.sp.toInt → s.sp.toInt ≤ 1024 →
    ∃ t, execAll [.call imm, .ret] s = .next t ∧ t.status = .running ∧ t.pc = s.pc + 4 ∧
      ∀ i : Slot, t.slot i = s.slot i

/-- From SP = 1024 exactly 256 four-byte entries fit: k pushes all complete if and only if k ≤ 256
(43_stack R196 (d)). -/
def Obligations.StackHolds256Entries : Prop :=
  ∀ (s : State) (ra : Field5) (k : Nat), s.status = .running → s.sp = 1024 → ra.toNat < 16 →
    ∃ t, execAll (List.replicate k (.pushl ra)) s = .next t ∧ (t.status = .running ↔ k ≤ 256)

/-! ## Input and output (44_io) -/

/-- printr: x[ra] is appended to the output history; an illegal register emits nothing (44_io R211). -/
def Obligations.PrintrEmitsRegister : Prop :=
  (∀ w : Word, w &&& 0xF8000000#32 = 0xA0000000#32 → decode w = .ok (.printr (w.extractLsb' 22 5))) ∧
  ∀ (s : State) (ra : Field5),
    (∀ ha : ra.toNat < 16, ∃ t, exec (.printr ra) s = .next t ∧ t.output = s.output ++ [s.gpr ⟨ra.toNat, ha⟩] ∧
      t.pc = s.pc + 4 ∧ t.input = s.input ∧ s.sameSlotsBut [] t ∧ s.sameMemory t ∧ s.sameRun t) ∧
    (15 < ra.toNat → exec (.printr ra) s = .next (s.faultedWith (.illegalRegister .ra ra)))

/-- readr: the host's next answer goes to x[ra] and is taken off; `fail` is InputError; an illegal register faults
before any input is asked for (44_io R212). The answers stand in the model's own queue (log 6). -/
def Obligations.ReadrTakesTheNextAnswer : Prop :=
  (∀ w : Word, w &&& 0xF8000000#32 = 0xA8000000#32 → decode w = .ok (.readr (w.extractLsb' 22 5))) ∧
  ∀ (s : State) (ra : Field5) (rest : List Answer),
    (∀ (ha : ra.toNat < 16) (v : Word), s.input = .value v :: rest → ∃ t, exec (.readr ra) s = .next t ∧
      t.gpr ⟨ra.toNat, ha⟩ = v ∧ t.input = rest ∧ t.output = s.output ∧ t.pc = s.pc + 4 ∧
      s.sameSlotsBut [slotOf ⟨ra.toNat, ha⟩] t ∧ s.sameMemory t ∧ s.sameRun t) ∧
    (ra.toNat < 16 → s.input = .fail :: rest → exec (.readr ra) s = .next (s.faultedWith .inputError)) ∧
    (15 < ra.toNat → exec (.readr ra) s = .next (s.faultedWith (.illegalRegister .ra ra)))

/-- With no answer yet readr waits: nothing changes, and once the host answers the value is taken (44_io R210, R212 (a);
that a wait is a step in place is the model's choice, log 6). -/
def Obligations.ReadrWaitsUntilTheHostAnswers : Prop :=
  ∀ (s : State) (ra : Field5) (v : Word) (ha : ra.toNat < 16), s.input = [] →
    exec (.readr ra) s = .next s ∧
    ∃ t, exec (.readr ra) (s.withAnswer (.value v)) = .next t ∧ t.gpr ⟨ra.toNat, ha⟩ = v ∧ t.input = []

/-- The host's reading of the decimal text it wrote for a value gives the value back (44_io R213, R214). -/
def Obligations.PrintedDecimalReadsBack : Prop :=
  ∀ v : Word, tokenAnswer (signedDecimal v) = .value v

/-! ## Data memory (20_memory) -/

/-- A byte access: a store sets DMEM[a] to bits 7 to 0, a load is zero-extended (20_memory R55). -/
def Obligations.ByteAccessStoresLowByteLoadsZeroExtended : Prop :=
  ∀ (s : State) (a : Int) (v : Word), 0 ≤ a → a + 1 ≤ 1024 →
    (∃ t, s.memWrite a .byte v = .ok t ∧ t.dmem.read a.toNat = v.extractLsb' 0 8 ∧ s.sameMemoryBut a .byte t) ∧
    (∃ r, s.memRead a .byte = .ok r ∧ r.toNat = (s.dmem.read a.toNat).toNat)

/-- A word access in both byte orders: which byte of the word stands at which address, stored and loaded; a word loads
as it was stored (20_memory R56). -/
def Obligations.WordAccessFollowsByteOrder : Prop :=
  ∀ (s : State) (a : Int) (v : Word), 0 ≤ a → a + 4 ≤ 1024 →
    ∃ t, s.memWrite a .word v = .ok t ∧ s.sameMemoryBut a .word t ∧ t.memRead a .word = .ok v ∧
      (s.config.byteOrder = .little →
        t.dmem.read a.toNat = v.extractLsb' 0 8 ∧ t.dmem.read (a.toNat + 1) = v.extractLsb' 8 8 ∧
        t.dmem.read (a.toNat + 2) = v.extractLsb' 16 8 ∧ t.dmem.read (a.toNat + 3) = v.extractLsb' 24 8 ∧
        s.memRead a .word = .ok (s.dmem.read (a.toNat + 3) ++ s.dmem.read (a.toNat + 2) ++ s.dmem.read (a.toNat + 1) ++
          s.dmem.read a.toNat)) ∧
      (s.config.byteOrder = .big →
        t.dmem.read a.toNat = v.extractLsb' 24 8 ∧ t.dmem.read (a.toNat + 1) = v.extractLsb' 16 8 ∧
        t.dmem.read (a.toNat + 2) = v.extractLsb' 8 8 ∧ t.dmem.read (a.toNat + 3) = v.extractLsb' 0 8 ∧
        s.memRead a .word = .ok (s.dmem.read a.toNat ++ s.dmem.read (a.toNat + 1) ++ s.dmem.read (a.toNat + 2) ++
          s.dmem.read (a.toNat + 3)))

/-- The bounds check: an access of n bytes at a is in bounds exactly if 0 ≤ a and a + n ≤ 1024; otherwise it is the
fault, for loads and stores alike (20_memory R53). -/
def Obligations.AccessFaultsExactlyOutOfBounds : Prop :=
  ∀ (s : State) (a : Int) (n : Width) (v : Word),
    (s.memRead a n = .error (.memoryOutOfRange a n) ↔ ¬ (0 ≤ a ∧ a + n.bytes ≤ 1024)) ∧
    (s.memWrite a n v = .error (.memoryOutOfRange a n) ↔ ¬ (0 ≤ a ∧ a + n.bytes ≤ 1024)) ∧
    ((∃ r, s.memRead a n = .ok r) ↔ 0 ≤ a ∧ a + n.bytes ≤ 1024) ∧
    ((∃ t, s.memWrite a n v = .ok t) ↔ 0 ≤ a ∧ a + n.bytes ≤ 1024)

/-- The exact sum and the sum modulo 2^32 read as signed give the same verdict of the bounds check, and the same
address where it is in bounds (20_memory R54). -/
def Obligations.ExactAndWrappedAddressAgree : Prop :=
  ∀ (s : State) (base : GReg) (imm : Imm16),
    s.effAddr base imm = (s.gpr base).toInt + (s.simm imm).toInt ∧
    (inBounds (s.effAddr base imm) .byte ↔ inBounds (s.gpr base + s.simm imm).toInt .byte) ∧
    (inBounds (s.effAddr base imm) .byte → s.effAddr base imm = (s.gpr base + s.simm imm).toInt)

/-- The canonical form determines the memory: two well-formed memories whose bytes all read alike are equal (the form
is the model's, log 17). -/
def Obligations.CanonicalMemoriesWithEqualBytesAreEqual : Prop :=
  ∀ m m' : Memory, m.wf → m'.wf → (∀ a : Nat, m.read a = m'.read a) → m = m'

/-- Only opcodes 6, 7 and 16 to 19 touch DMEM: every other instruction neither reads nor writes it (20_memory R52). -/
def Obligations.OtherInstructionsIgnoreMemory : Prop :=
  ∀ (i : Instr) (s t : State) (m : Memory), i.opcode.toNat ∉ [6, 7, 16, 17, 18, 19] → exec i s = .next t →
    exec i { s with dmem := m } = .next { t with dmem := m }

/-! ## Rules of the whole machine -/

/-- Only cmpl writes FLAGS, and what it writes does not depend on the old FLAGS (10_state R25). -/
def Obligations.OnlyCmplWritesFlags : Prop :=
  (∀ (i : Instr) (s t : State), i.opcode ≠ 9 → exec i s = .next t → t.flags = s.flags) ∧
  (∀ (ra rb : Field5) (s : State) (f : Word), ra.toNat < 16 → rb.toNat < 16 →
    exec (.cmpl ra rb) (s.setFlags f) = exec (.cmpl ra rb) s)

/-- Only the conditional branches read FLAGS: any other instruction but cmpl runs the same whatever FLAGS holds, and a
branch looks at bits 0, 6, 7 and 11 alone (10_state R26). -/
def Obligations.OnlyConditionalBranchesReadFlags : Prop :=
  (∀ (i : Instr) (s t : State) (f : Word), i.opcode.toNat ∉ [9, 10, 11, 12, 13, 14] → exec i s = .next t →
    exec i (s.setFlags f) = .next (t.setFlags f)) ∧
  (∀ (i : Instr) (s t : State) (f : Word), i.opcode.toNat ∈ [10, 11, 12, 13, 14] → exec i s = .next t →
    f &&& 0x8C1#32 = s.flags &&& 0x8C1#32 → exec i (s.setFlags f) = .next (t.setFlags f))

/-- Every step keeps the invariant: DMEM canonical and inside 1024 bytes, FLAGS with no bit but CF, ZF, SF and OF, at
most 2^28 words of IMEM (10_state R28, 20_memory R51). -/
def Obligations.EveryStepKeepsTheInvariant : Prop :=
  ∀ s t : State, s.Inv → step s = .next t → t.Inv

/-- The invariant holds at reset, with any program loaded (10_state R28, R38). -/
def Obligations.InvariantHoldsAtReset : Prop :=
  State.reset.Inv ∧ ∀ (c : Config) (bytes : List Byte) (s : State), State.boot c bytes = .ok s → s.Inv

/-- The instruction memory is set at load and never changes during a run; nor do the parameters. The first
part is 10_state R32; the parameters, of which R32 does not speak, stand in State by the model's choice (log 1). -/
def Obligations.NoStepWritesInstructionMemory : Prop :=
  (∀ (c : Config) (bytes : List Byte) (s : State), State.boot c bytes = .ok s →
    loadProgram c.fileByteOrder bytes = .ok s.imem) ∧
  ∀ (s t : State) (k : Nat), (step s = .next t → t.imem = s.imem ∧ t.config = s.config) ∧
    (s.run k).imem = s.imem ∧ (s.run k).config = s.config

/-- Emitted output stays emitted: a step appends at most one value, a step that ends the run appends none, and every
observation holds the whole history. This is an inference that 44_io R215 marks as its own ("derived: from rules R211
and 30_encoding.md rule R99"). -/
def Obligations.OutputHistoryOnlyGrows : Prop :=
  (∀ s t : State, step s = .next t →
    (t.output = s.output ∨ ∃ v, t.output = s.output ++ [v]) ∧ (t.status ≠ .running → t.output = s.output)) ∧
  (∀ (s : State) (k : Nat), s.output <+: (s.run k).output) ∧
  (∀ (s : State) (o : Observation), s.observe = some o → o.output = s.output)

/-- A step takes at most one answer of the host, the oldest, and only a readr takes one (44_io R210). -/
def Obligations.AnswersAreTakenInOrderByReadrOnly : Prop :=
  ∀ s t : State, step s = .next t →
    t.input = s.input ∨ (∃ r, s.input = r :: t.input) ∧ ∃ w ra, s.fetched = some w ∧ decode w = .ok (.readr ra)
end

