-- ==== Sys2Proof/Laws/State.lean ====
section
/-! SUPPORT. The small lemmas of State: one per field per update, and what each accessor reads after each update. -/

namespace Sys2Proof.Machine

variable (s : State)

/-! ### setSlot -/

@[simp] theorem State.setSlot_x (i : Slot) (v : Word) : (s.setSlot i v).x = s.x.set i v := rfl
@[simp] theorem State.setSlot_pc (i : Slot) (v : Word) : (s.setSlot i v).pc = s.pc := rfl
@[simp] theorem State.setSlot_dmem (i : Slot) (v : Word) : (s.setSlot i v).dmem = s.dmem := rfl
@[simp] theorem State.setSlot_imem (i : Slot) (v : Word) : (s.setSlot i v).imem = s.imem := rfl
@[simp] theorem State.setSlot_status (i : Slot) (v : Word) : (s.setSlot i v).status = s.status := rfl
@[simp] theorem State.setSlot_output (i : Slot) (v : Word) : (s.setSlot i v).output = s.output := rfl
@[simp] theorem State.setSlot_input (i : Slot) (v : Word) : (s.setSlot i v).input = s.input := rfl
@[simp] theorem State.setSlot_config (i : Slot) (v : Word) : (s.setSlot i v).config = s.config := rfl

/-! ### setPc -/

@[simp] theorem State.setPc_x (t : Word) : (s.setPc t).x = s.x := rfl
@[simp] theorem State.setPc_pc (t : Word) : (s.setPc t).pc = t := rfl
@[simp] theorem State.setPc_dmem (t : Word) : (s.setPc t).dmem = s.dmem := rfl
@[simp] theorem State.setPc_imem (t : Word) : (s.setPc t).imem = s.imem := rfl
@[simp] theorem State.setPc_status (t : Word) : (s.setPc t).status = s.status := rfl
@[simp] theorem State.setPc_output (t : Word) : (s.setPc t).output = s.output := rfl
@[simp] theorem State.setPc_input (t : Word) : (s.setPc t).input = s.input := rfl
@[simp] theorem State.setPc_config (t : Word) : (s.setPc t).config = s.config := rfl

@[simp] theorem State.setPc_slot (t : Word) (j : Slot) : (s.setPc t).slot j = s.slot j := rfl
@[simp] theorem State.setPc_gpr (t : Word) (j : GReg) : (s.setPc t).gpr j = s.gpr j := rfl
@[simp] theorem State.setPc_sp (t : Word) : (s.setPc t).sp = s.sp := rfl
@[simp] theorem State.setPc_flags (t : Word) : (s.setPc t).flags = s.flags := rfl

/-! ### advance -/

@[simp] theorem State.advance_x : (s.advance).x = s.x := rfl
@[simp] theorem State.advance_pc : (s.advance).pc = s.nextPc := rfl
@[simp] theorem State.advance_dmem : (s.advance).dmem = s.dmem := rfl
@[simp] theorem State.advance_imem : (s.advance).imem = s.imem := rfl
@[simp] theorem State.advance_status : (s.advance).status = s.status := rfl
@[simp] theorem State.advance_output : (s.advance).output = s.output := rfl
@[simp] theorem State.advance_input : (s.advance).input = s.input := rfl
@[simp] theorem State.advance_config : (s.advance).config = s.config := rfl

@[simp] theorem State.advance_slot (j : Slot) : (s.advance).slot j = s.slot j := rfl
@[simp] theorem State.advance_gpr (j : GReg) : (s.advance).gpr j = s.gpr j := rfl
@[simp] theorem State.advance_sp  : (s.advance).sp = s.sp := rfl
@[simp] theorem State.advance_flags  : (s.advance).flags = s.flags := rfl

/-! ### emit -/

@[simp] theorem State.emit_x (v : Word) : (s.emit v).x = s.x := rfl
@[simp] theorem State.emit_pc (v : Word) : (s.emit v).pc = s.pc := rfl
@[simp] theorem State.emit_dmem (v : Word) : (s.emit v).dmem = s.dmem := rfl
@[simp] theorem State.emit_imem (v : Word) : (s.emit v).imem = s.imem := rfl
@[simp] theorem State.emit_status (v : Word) : (s.emit v).status = s.status := rfl
@[simp] theorem State.emit_output (v : Word) : (s.emit v).output = s.output ++ [v] := rfl
@[simp] theorem State.emit_input (v : Word) : (s.emit v).input = s.input := rfl
@[simp] theorem State.emit_config (v : Word) : (s.emit v).config = s.config := rfl

@[simp] theorem State.emit_slot (v : Word) (j : Slot) : (s.emit v).slot j = s.slot j := rfl
@[simp] theorem State.emit_gpr (v : Word) (j : GReg) : (s.emit v).gpr j = s.gpr j := rfl
@[simp] theorem State.emit_sp (v : Word) : (s.emit v).sp = s.sp := rfl
@[simp] theorem State.emit_flags (v : Word) : (s.emit v).flags = s.flags := rfl

/-! ### dropAnswer -/

@[simp] theorem State.dropAnswer_x : (s.dropAnswer).x = s.x := rfl
@[simp] theorem State.dropAnswer_pc : (s.dropAnswer).pc = s.pc := rfl
@[simp] theorem State.dropAnswer_dmem : (s.dropAnswer).dmem = s.dmem := rfl
@[simp] theorem State.dropAnswer_imem : (s.dropAnswer).imem = s.imem := rfl
@[simp] theorem State.dropAnswer_status : (s.dropAnswer).status = s.status := rfl
@[simp] theorem State.dropAnswer_output : (s.dropAnswer).output = s.output := rfl
@[simp] theorem State.dropAnswer_input : (s.dropAnswer).input = s.input.tail := rfl
@[simp] theorem State.dropAnswer_config : (s.dropAnswer).config = s.config := rfl

@[simp] theorem State.dropAnswer_slot (j : Slot) : (s.dropAnswer).slot j = s.slot j := rfl
@[simp] theorem State.dropAnswer_gpr (j : GReg) : (s.dropAnswer).gpr j = s.gpr j := rfl
@[simp] theorem State.dropAnswer_sp  : (s.dropAnswer).sp = s.sp := rfl
@[simp] theorem State.dropAnswer_flags  : (s.dropAnswer).flags = s.flags := rfl

/-! ### withAnswer -/

@[simp] theorem State.withAnswer_x (r : Answer) : (s.withAnswer r).x = s.x := rfl
@[simp] theorem State.withAnswer_pc (r : Answer) : (s.withAnswer r).pc = s.pc := rfl
@[simp] theorem State.withAnswer_dmem (r : Answer) : (s.withAnswer r).dmem = s.dmem := rfl
@[simp] theorem State.withAnswer_imem (r : Answer) : (s.withAnswer r).imem = s.imem := rfl
@[simp] theorem State.withAnswer_status (r : Answer) : (s.withAnswer r).status = s.status := rfl
@[simp] theorem State.withAnswer_output (r : Answer) : (s.withAnswer r).output = s.output := rfl
@[simp] theorem State.withAnswer_input (r : Answer) : (s.withAnswer r).input = s.input ++ [r] := rfl
@[simp] theorem State.withAnswer_config (r : Answer) : (s.withAnswer r).config = s.config := rfl

@[simp] theorem State.withAnswer_slot (r : Answer) (j : Slot) : (s.withAnswer r).slot j = s.slot j := rfl
@[simp] theorem State.withAnswer_gpr (r : Answer) (j : GReg) : (s.withAnswer r).gpr j = s.gpr j := rfl
@[simp] theorem State.withAnswer_sp (r : Answer) : (s.withAnswer r).sp = s.sp := rfl
@[simp] theorem State.withAnswer_flags (r : Answer) : (s.withAnswer r).flags = s.flags := rfl

/-! ### halt -/

@[simp] theorem State.halt_x : (s.halt).x = s.x := rfl
@[simp] theorem State.halt_pc : (s.halt).pc = s.pc := rfl
@[simp] theorem State.halt_dmem : (s.halt).dmem = s.dmem := rfl
@[simp] theorem State.halt_imem : (s.halt).imem = s.imem := rfl
@[simp] theorem State.halt_status : (s.halt).status = .halted := rfl
@[simp] theorem State.halt_output : (s.halt).output = s.output := rfl
@[simp] theorem State.halt_input : (s.halt).input = s.input := rfl
@[simp] theorem State.halt_config : (s.halt).config = s.config := rfl

@[simp] theorem State.halt_slot (j : Slot) : (s.halt).slot j = s.slot j := rfl
@[simp] theorem State.halt_gpr (j : GReg) : (s.halt).gpr j = s.gpr j := rfl
@[simp] theorem State.halt_sp  : (s.halt).sp = s.sp := rfl
@[simp] theorem State.halt_flags  : (s.halt).flags = s.flags := rfl

/-! ### setGpr -/

@[simp] theorem State.setGpr_pc (r : GReg) (v : Word) : (s.setGpr r v).pc = s.pc := rfl
@[simp] theorem State.setGpr_dmem (r : GReg) (v : Word) : (s.setGpr r v).dmem = s.dmem := rfl
@[simp] theorem State.setGpr_imem (r : GReg) (v : Word) : (s.setGpr r v).imem = s.imem := rfl
@[simp] theorem State.setGpr_status (r : GReg) (v : Word) : (s.setGpr r v).status = s.status := rfl
@[simp] theorem State.setGpr_output (r : GReg) (v : Word) : (s.setGpr r v).output = s.output := rfl
@[simp] theorem State.setGpr_input (r : GReg) (v : Word) : (s.setGpr r v).input = s.input := rfl
@[simp] theorem State.setGpr_config (r : GReg) (v : Word) : (s.setGpr r v).config = s.config := rfl

/-! ### setSp -/

@[simp] theorem State.setSp_pc (v : Word) : (s.setSp v).pc = s.pc := rfl
@[simp] theorem State.setSp_dmem (v : Word) : (s.setSp v).dmem = s.dmem := rfl
@[simp] theorem State.setSp_imem (v : Word) : (s.setSp v).imem = s.imem := rfl
@[simp] theorem State.setSp_status (v : Word) : (s.setSp v).status = s.status := rfl
@[simp] theorem State.setSp_output (v : Word) : (s.setSp v).output = s.output := rfl
@[simp] theorem State.setSp_input (v : Word) : (s.setSp v).input = s.input := rfl
@[simp] theorem State.setSp_config (v : Word) : (s.setSp v).config = s.config := rfl

/-! ### setFlags -/

@[simp] theorem State.setFlags_pc (v : Word) : (s.setFlags v).pc = s.pc := rfl
@[simp] theorem State.setFlags_dmem (v : Word) : (s.setFlags v).dmem = s.dmem := rfl
@[simp] theorem State.setFlags_imem (v : Word) : (s.setFlags v).imem = s.imem := rfl
@[simp] theorem State.setFlags_status (v : Word) : (s.setFlags v).status = s.status := rfl
@[simp] theorem State.setFlags_output (v : Word) : (s.setFlags v).output = s.output := rfl
@[simp] theorem State.setFlags_input (v : Word) : (s.setFlags v).input = s.input := rfl
@[simp] theorem State.setFlags_config (v : Word) : (s.setFlags v).config = s.config := rfl

/-! ### spDown -/

@[simp] theorem State.spDown_pc : (s.spDown).pc = s.pc := rfl
@[simp] theorem State.spDown_dmem : (s.spDown).dmem = s.dmem := rfl
@[simp] theorem State.spDown_imem : (s.spDown).imem = s.imem := rfl
@[simp] theorem State.spDown_status : (s.spDown).status = s.status := rfl
@[simp] theorem State.spDown_output : (s.spDown).output = s.output := rfl
@[simp] theorem State.spDown_input : (s.spDown).input = s.input := rfl
@[simp] theorem State.spDown_config : (s.spDown).config = s.config := rfl

/-! ### branch -/

@[simp] theorem State.branch_x (b : Bool) (imm : Imm16) : (s.branch b imm).x = s.x := rfl
@[simp] theorem State.branch_pc (b : Bool) (imm : Imm16) : (s.branch b imm).pc = if b then s.target imm else s.nextPc := rfl
@[simp] theorem State.branch_dmem (b : Bool) (imm : Imm16) : (s.branch b imm).dmem = s.dmem := rfl
@[simp] theorem State.branch_imem (b : Bool) (imm : Imm16) : (s.branch b imm).imem = s.imem := rfl
@[simp] theorem State.branch_status (b : Bool) (imm : Imm16) : (s.branch b imm).status = s.status := rfl
@[simp] theorem State.branch_output (b : Bool) (imm : Imm16) : (s.branch b imm).output = s.output := rfl
@[simp] theorem State.branch_input (b : Bool) (imm : Imm16) : (s.branch b imm).input = s.input := rfl
@[simp] theorem State.branch_config (b : Bool) (imm : Imm16) : (s.branch b imm).config = s.config := rfl

@[simp] theorem State.branch_slot (b : Bool) (imm : Imm16) (j : Slot) : (s.branch b imm).slot j = s.slot j := rfl
@[simp] theorem State.branch_gpr (b : Bool) (imm : Imm16) (j : GReg) : (s.branch b imm).gpr j = s.gpr j := rfl
@[simp] theorem State.branch_sp (b : Bool) (imm : Imm16) : (s.branch b imm).sp = s.sp := rfl
@[simp] theorem State.branch_flags (b : Bool) (imm : Imm16) : (s.branch b imm).flags = s.flags := rfl

/-! ### Slots -/

theorem slotOf_val (r : GReg) : (slotOf r).val = r.val := rfl

theorem slotOf_injective {r q : GReg} (h : slotOf r = slotOf q) : r = q := Fin.castSucc_injective 16 h

theorem slotOf_ne_flags (r : GReg) : slotOf r ≠ flagsSlot := by
  intro h
  have := congrArg Fin.val h
  have hr := r.isLt
  simp [slotOf, flagsSlot] at this
  omega

@[simp] theorem slotOf_spReg : slotOf spReg = spSlot := rfl

theorem spSlot_ne_flags : spSlot ≠ flagsSlot := by decide

theorem State.setSlot_slot (i : Slot) (v : Word) (j : Slot) :
    (s.setSlot i v).slot j = if i = j then v else s.slot j := by
  by_cases h : i = j
  · subst h; simp [State.slot, State.setSlot]
  · have : i.val ≠ j.val := fun h' => h (Fin.ext h')
    simp [State.slot, State.setSlot, h, this]

@[simp] theorem State.setSlot_slot_self (i : Slot) (v : Word) : (s.setSlot i v).slot i = v := by
  simp [State.setSlot_slot]

theorem State.setSlot_slot_ne {i j : Slot} (h : i ≠ j) (v : Word) : (s.setSlot i v).slot j = s.slot j := by
  simp [State.setSlot_slot, h]

theorem State.setGpr_slot (r : GReg) (v : Word) (j : Slot) :
    (s.setGpr r v).slot j = if slotOf r = j then v else s.slot j := s.setSlot_slot _ _ _

theorem State.setSp_slot (v : Word) (j : Slot) : (s.setSp v).slot j = if spSlot = j then v else s.slot j :=
  s.setSlot_slot _ _ _

theorem State.setFlags_slot (v : Word) (j : Slot) : (s.setFlags v).slot j = if flagsSlot = j then v else s.slot j :=
  s.setSlot_slot _ _ _

theorem State.setGpr_gpr (r : GReg) (v : Word) (q : GReg) : (s.setGpr r v).gpr q = if r = q then v else s.gpr q := by
  by_cases h : r = q
  · subst h; simp [State.gpr, State.setGpr]
  · have : slotOf r ≠ slotOf q := fun h' => h (slotOf_injective h')
    simp [State.gpr, State.setGpr, State.setSlot_slot, h, this]

@[simp] theorem State.setGpr_gpr_self (r : GReg) (v : Word) : (s.setGpr r v).gpr r = v := by simp [State.setGpr_gpr]

@[simp] theorem State.setGpr_flags (r : GReg) (v : Word) : (s.setGpr r v).flags = s.flags :=
  s.setSlot_slot_ne (slotOf_ne_flags r) v

theorem State.sp_eq_gpr : s.sp = s.gpr spReg := rfl

theorem State.setSp_eq_setGpr (v : Word) : s.setSp v = s.setGpr spReg v := rfl

theorem State.setGpr_sp (r : GReg) (v : Word) : (s.setGpr r v).sp = if r = spReg then v else s.sp :=
  s.setGpr_gpr r v spReg

@[simp] theorem State.setSp_sp (v : Word) : (s.setSp v).sp = v := s.setSlot_slot_self _ _

theorem State.setSp_gpr (v : Word) (q : GReg) : (s.setSp v).gpr q = if spReg = q then v else s.gpr q :=
  s.setGpr_gpr spReg v q

@[simp] theorem State.setSp_flags (v : Word) : (s.setSp v).flags = s.flags := s.setSlot_slot_ne spSlot_ne_flags v

@[simp] theorem State.setFlags_flags (v : Word) : (s.setFlags v).flags = v := s.setSlot_slot_self _ _

@[simp] theorem State.setFlags_gpr (v : Word) (q : GReg) : (s.setFlags v).gpr q = s.gpr q :=
  s.setSlot_slot_ne (slotOf_ne_flags q).symm v

@[simp] theorem State.setFlags_sp (v : Word) : (s.setFlags v).sp = s.sp := s.setFlags_gpr v spReg

@[simp] theorem State.spDown_sp : s.spDown.sp = BitVec.ofInt 32 s.pushAddr := s.setSp_sp _

@[simp] theorem State.spDown_flags : s.spDown.flags = s.flags := s.setSp_flags _

/-- Two register files that agree slot by slot are equal. -/
theorem State.x_ext {s t : State} (h : ∀ i : Slot, t.slot i = s.slot i) : t.x = s.x := by
  apply Vector.ext
  intro i hi
  exact h ⟨i, hi⟩

/-! ### The reset state (10_state R38) -/

@[simp] theorem State.reset_slot (i : Slot) : State.reset.slot i = if i = spSlot then 1024 else 0 := by
  revert i; decide

/-- The reset state has canonical memory. -/
theorem State.reset_wf : State.reset.dmem.wf := by decide

end Sys2Proof.Machine
end

