-- ==== Sys2Proof/Laws/Flags.lean ====
section
/-! SUPPORT. Each bit of a packed FLAGS word, and each flag of cmpl as a fact about its operands. -/

namespace Sys2Proof.Machine

theorem flagBit_getLsbD (b : Bool) (k : Nat) : (flagBit b).getLsbD k = (decide (k = 0) && b) := by
  by_cases h : k < 32
  · cases b <;> interval_cases k <;> decide
  · rw [BitVec.getLsbD_of_ge _ _ (by omega)]
    simp [show k ≠ 0 by omega]

/-- A packed FLAGS word holds the four flags at bits 0, 6, 7 and 11 and nothing else (10_state R24). -/
theorem packFlags_getLsbD (cf zf sf of_ : Bool) (k : Nat) :
    (packFlags cf zf sf of_).getLsbD k =
      ((decide (k = 0) && cf) || (decide (k = 6) && zf) || (decide (k = 7) && sf) || (decide (k = 11) && of_)) := by
  by_cases h : k < 32
  · simp only [packFlags, BitVec.getLsbD_or, BitVec.getLsbD_shiftLeft, flagBit_getLsbD]
    interval_cases k <;> simp
  · rw [BitVec.getLsbD_of_ge _ _ (by omega)]
    simp [show k ≠ 0 by omega, show k ≠ 6 by omega, show k ≠ 7 by omega, show k ≠ 11 by omega]

theorem cmplCF_iff (a b : Word) : cmplCF a b = true ↔ b.toNat < a.toNat := by simp [cmplCF]

theorem cmplZF_iff (a b : Word) : cmplZF a b = true ↔ cmplResult a b = 0 := by simp [cmplZF]

theorem cmplSF_iff (a b : Word) : cmplSF a b = true ↔ (cmplResult a b).toInt < 0 := by
  have : cmplSF a b = (cmplResult a b).msb := rfl
  rw [this, BitVec.msb_eq_toInt]
  simp

theorem cmplOF_iff (a b : Word) :
    cmplOF a b = true ↔
      (0 < b.toInt ∧ a.toInt < 0 ∧ (cmplResult a b).toInt < 0) ∨
      (b.toInt < 0 ∧ 0 < a.toInt ∧ 0 < (cmplResult a b).toInt) := by
  simp [cmplOF, and_assoc]

/-- The wrapped difference is the exact one, or that 2^32 above or below. -/
theorem cmplResult_toInt (a b : Word) :
    (cmplResult a b).toInt = b.toInt - a.toInt ∨ (cmplResult a b).toInt = b.toInt - a.toInt + 4294967296 ∨
      (cmplResult a b).toInt = b.toInt - a.toInt - 4294967296 := by
  have ha := a.toInt_lt
  have ha' := a.le_toInt
  have hb := b.toInt_lt
  have hb' := b.le_toInt
  rw [cmplResult, BitVec.toInt_sub]
  simp only [Int.bmod]
  split <;> omega

end Sys2Proof.Machine
end

