-- ==== Sys2Proof/Laws/Memory.lean ====
section
/-! SUPPORT. The laws of the data memory: a byte read after a byte write, and every operation keeps the canonical form. -/

namespace Sys2Proof.Machine

theorem Memory.read_insert_self (m : Memory) (k : Nat) (v : Byte) (h : ∀ c ∈ m, c.1 ≠ k) :
    (Memory.insert m k v).read k = v := by
  induction m with
  | nil => simp [Memory.insert, Memory.read]
  | cons c m ih =>
    obtain ⟨a, b⟩ := c
    have ha : a ≠ k := h (a, b) (by simp)
    have ih := ih fun c hc => h c (by simp [hc])
    by_cases hk : k < a
    · simp [Memory.insert, hk, Memory.read]
    · simp [Memory.insert, hk, Memory.read, ha, ih]

theorem Memory.read_insert_ne (m : Memory) {k j : Nat} (v : Byte) (h : k ≠ j) :
    (Memory.insert m k v).read j = m.read j := by
  induction m with
  | nil => simp [Memory.insert, Memory.read, h]
  | cons c m ih =>
    obtain ⟨a, b⟩ := c
    by_cases hk : k < a
    · simp [Memory.insert, hk, Memory.read, h]
    · simp [Memory.insert, hk, Memory.read, ih]

theorem Memory.read_unlisted (m : Memory) (k : Nat) (h : ∀ c ∈ m, c.1 ≠ k) : m.read k = Memory.unlisted := by
  induction m with
  | nil => rfl
  | cons c m ih =>
    obtain ⟨a, b⟩ := c
    have ha : a ≠ k := h (a, b) (by simp)
    simp [Memory.read, ha, ih fun c hc => h c (by simp [hc])]

theorem Memory.read_erase_ne (m : Memory) {k j : Nat} (h : k ≠ j) :
    Memory.read (m.filter fun c => c.1 != k) j = m.read j := by
  induction m with
  | nil => rfl
  | cons c m ih =>
    obtain ⟨a, b⟩ := c
    by_cases ha : a = k
    · subst ha; simp [Memory.read, h, ih]
    · simp [ha, Memory.read, ih]

/-- A byte reads as it was last written. -/
@[simp] theorem Memory.read_write_self (m : Memory) (k : Nat) (v : Byte) : (m.write k v).read k = v := by
  have hf : ∀ c ∈ m.filter (fun c => c.1 != k), c.1 ≠ k := by
    intro c hc; simpa using (List.mem_filter.mp hc).2
  unfold Memory.write
  split
  · rename_i hv; rw [hv]; exact Memory.read_unlisted _ _ hf
  · exact Memory.read_insert_self _ _ _ hf

/-- A write leaves every other byte as it was. -/
theorem Memory.read_write_ne (m : Memory) {k j : Nat} (v : Byte) (h : k ≠ j) : (m.write k v).read j = m.read j := by
  unfold Memory.write
  split
  · exact Memory.read_erase_ne m h
  · rw [Memory.read_insert_ne _ _ h, Memory.read_erase_ne m h]

theorem Memory.read_write (m : Memory) (k j : Nat) (v : Byte) :
    (m.write k v).read j = if k = j then v else m.read j := by
  by_cases h : k = j
  · subst h; simp
  · simp [h, Memory.read_write_ne m v h]

theorem Memory.mem_insert {m : Memory} {k : Nat} {v : Byte} {c : Host.Cell} (h : c ∈ Memory.insert m k v) :
    c = (k, v) ∨ c ∈ m := by
  induction m with
  | nil => simpa [Memory.insert] using h
  | cons d m ih =>
    obtain ⟨a, b⟩ := d
    by_cases hk : k < a
    · simpa [Memory.insert, hk] using h
    · simp only [Memory.insert, hk, if_false, List.mem_cons] at h
      rcases h with h | h
      · exact .inr (by simp [h])
      · rcases ih h with h | h
        · exact .inl h
        · exact .inr (by simp [h])

theorem Memory.insert_wf {m : Memory} {k : Nat} {v : Byte} (h : m.wf) (hne : ∀ c ∈ m, c.1 ≠ k) (hk : k < memSize)
    (hv : v ≠ Memory.unlisted) : (Memory.insert m k v).wf := by
  induction m with
  | nil => simp [Memory.insert, Memory.wf, hk, hv]
  | cons d m ih =>
    obtain ⟨a, b⟩ := d
    obtain ⟨hp, hc⟩ := h
    rw [List.pairwise_cons] at hp
    by_cases ha : k < a
    · simp only [Memory.insert, ha, if_true]
      refine ⟨List.pairwise_cons.mpr ⟨?_, List.pairwise_cons.mpr hp⟩, ?_⟩
      · intro c hcm
        rcases List.mem_cons.mp hcm with rfl | hcm
        · exact ha
        · exact Nat.lt_trans ha (hp.1 c hcm)
      · intro c hcm
        rcases List.mem_cons.mp hcm with rfl | hcm
        · exact ⟨hk, hv⟩
        · exact hc c hcm
    · simp only [Memory.insert, ha, if_false]
      have ih := ih ⟨hp.2, fun c hcm => hc c (by simp [hcm])⟩ (fun c hcm => hne c (by simp [hcm]))
      have hak : a ≠ k := hne (a, b) (by simp)
      refine ⟨List.pairwise_cons.mpr ⟨?_, ih.1⟩, ?_⟩
      · intro c hcm
        rcases Memory.mem_insert hcm with rfl | hcm
        · show a < k
          omega
        · exact hp.1 c hcm
      · intro c hcm
        rcases List.mem_cons.mp hcm with rfl | hcm
        · exact hc _ (by simp)
        · exact ih.2 c hcm

theorem Memory.nil_wf : Memory.wf [] := by decide

/-- A byte write inside DMEM keeps the canonical form. -/
theorem Memory.write_wf {m : Memory} (h : m.wf) {k : Nat} (hk : k < memSize) (v : Byte) : (m.write k v).wf := by
  have hf : Memory.wf (m.filter fun c => c.1 != k) :=
    ⟨h.1.filter _, fun c hc => h.2 c (List.mem_filter.mp hc).1⟩
  unfold Memory.write
  split
  · exact hf
  · rename_i hv
    refine Memory.insert_wf hf ?_ hk hv
    intro c hc; simpa using (List.mem_filter.mp hc).2

/-- A word write inside DMEM keeps the canonical form. -/
theorem Memory.writeWord_wf {m : Memory} (h : m.wf) (o : ByteOrder) {a : Nat} (ha : a + 4 ≤ memSize) (v : Word) :
    (m.writeWord o a v).wf := by
  cases o <;>
    exact Memory.write_wf (Memory.write_wf (Memory.write_wf (Memory.write_wf h (by omega) _) (by omega) _) (by omega) _)
      (by omega) _

/-- A word write leaves every byte outside its four as it was. -/
theorem Memory.read_writeWord_ne (m : Memory) (o : ByteOrder) (a : Nat) (v : Word) {k : Nat} (h : k < a ∨ a + 4 ≤ k) :
    (m.writeWord o a v).read k = m.read k := by
  cases o <;> simp only [Memory.writeWord] <;>
    rw [Memory.read_write_ne _ _ (by omega), Memory.read_write_ne _ _ (by omega), Memory.read_write_ne _ _ (by omega),
      Memory.read_write_ne _ _ (by omega)]

end Sys2Proof.Machine
end

