-- ==== Sys2Proof/Laws/Ops.lean ====
section
/-! SUPPORT. One lemma for each shared operation that says what it can do; proofs cite these and unfold nothing. -/

namespace Sys2Proof.Machine

/-! ### Register operands -/

theorem useReg_legal (f : FieldName) {r : Field5} (h : r.toNat < 16) : useReg f r = .ok ⟨r.toNat, h⟩ := by
  simp [useReg, h]

theorem useReg_illegal (f : FieldName) {r : Field5} (h : 16 ≤ r.toNat) : useReg f r = .error (.illegalRegister f r) := by
  simp [useReg, Nat.not_lt.mpr h]

theorem useReg_ok {f : FieldName} {r : Field5} {k : GReg} (h : useReg f r = .ok k) : r.toNat < 16 ∧ k.val = r.toNat := by
  unfold useReg at h
  split at h
  · rename_i hr; cases h; exact ⟨hr, rfl⟩
  · cases h

theorem useReg_error {f : FieldName} {r : Field5} {c : FaultCause} (h : useReg f r = .error c) :
    16 ≤ r.toNat ∧ c = .illegalRegister f r := by
  unfold useReg at h
  split at h
  · cases h
  · rename_i hr; cases h; exact ⟨by omega, rfl⟩

/-! ### Taking a fault and committing -/

theorem raise_eq (c : FaultCause) (s : State) : raise c s = .next { s with status := .faulted (s.faultInfo c) } := rfl

@[simp] theorem commit_ok (s t : State) : commit s (.ok t) = .next t := rfl

@[simp] theorem commit_error (s : State) (c : FaultCause) : commit s (.error c) = raise c s := rfl

/-- A commit answers the instruction's own state, or takes its fault with nothing else changed. -/
theorem commit_next {s t : State} {r : Except FaultCause State} (h : commit s r = .next t) :
    r = .ok t ∨ ∃ c, r = .error c ∧ t = { s with status := .faulted (s.faultInfo c) } := by
  cases r with
  | ok u => cases h; exact .inl rfl
  | error c => cases h; exact .inr ⟨c, rfl, rfl⟩

/-- A commit never stops the machine. -/
theorem commit_answers (s : State) (r : Except FaultCause State) : ∃ t, commit s r = .next t := by
  cases r with
  | ok u => exact ⟨u, rfl⟩
  | error c => exact ⟨_, rfl⟩

/-! ### Data memory -/

theorem memRead_byte (s : State) {a : Int} (h : inBounds a .byte) :
    s.memRead a .byte = .ok ((s.dmem.read a.toNat).setWidth 32) := by
  unfold State.memRead; rw [if_pos h]

theorem memRead_word (s : State) {a : Int} (h : inBounds a .word) :
    s.memRead a .word = .ok (s.dmem.readWord s.config.byteOrder a.toNat) := by
  unfold State.memRead; rw [if_pos h]

theorem memRead_out (s : State) {a : Int} {n : Width} (h : ¬ inBounds a n) :
    s.memRead a n = .error (.memoryOutOfRange a n) := by
  unfold State.memRead; rw [if_neg h]

theorem memWrite_byte (s : State) {a : Int} (h : inBounds a .byte) (v : Word) :
    s.memWrite a .byte v = .ok { s with dmem := s.dmem.write a.toNat (byteOf v 0) } := by
  unfold State.memWrite; rw [if_pos h]

theorem memWrite_word (s : State) {a : Int} (h : inBounds a .word) (v : Word) :
    s.memWrite a .word v = .ok { s with dmem := s.dmem.writeWord s.config.byteOrder a.toNat v } := by
  unfold State.memWrite; rw [if_pos h]

theorem memWrite_out (s : State) {a : Int} {n : Width} (h : ¬ inBounds a n) (v : Word) :
    s.memWrite a n v = .error (.memoryOutOfRange a n) := by
  unfold State.memWrite; rw [if_neg h]

/-- A store that lands changes DMEM alone, only inside its bytes, and keeps the canonical form. -/
theorem memWrite_ok {s t : State} {a : Int} {n : Width} {v : Word} (h : s.memWrite a n v = .ok t) :
    inBounds a n ∧ t = { s with dmem := t.dmem } ∧ s.sameMemoryBut a n t ∧ (s.dmem.wf → t.dmem.wf) := by
  by_cases hb : inBounds a n
  · cases n with
    | byte =>
      have hb' : 0 ≤ a ∧ a + 1 ≤ 1024 := by simpa [inBounds, Width.bytes, memSize] using hb
      rw [memWrite_byte s hb] at h
      cases h
      refine ⟨hb, rfl, ?_, fun hw => Memory.write_wf hw (by simp only [memSize]; omega) _⟩
      intro k hk
      simp only [Width.bytes] at hk
      exact Memory.read_write_ne _ _ (by omega)
    | word =>
      have hb' : 0 ≤ a ∧ a + 4 ≤ 1024 := by simpa [inBounds, Width.bytes, memSize] using hb
      rw [memWrite_word s hb] at h
      cases h
      refine ⟨hb, rfl, ?_, fun hw => Memory.writeWord_wf hw _ (by simp only [memSize]; omega) _⟩
      intro k hk
      simp only [Width.bytes] at hk
      exact Memory.read_writeWord_ne _ _ _ _ (by omega)
  · rw [memWrite_out s hb] at h; cases h

/-- A load gives a value only inside DMEM; otherwise it is the bounds fault. -/
theorem memRead_error {s : State} {a : Int} {n : Width} {c : FaultCause} (h : s.memRead a n = .error c) :
    ¬ inBounds a n ∧ c = .memoryOutOfRange a n := by
  by_cases hb : inBounds a n
  · cases n with
    | byte => rw [memRead_byte s hb] at h; cases h
    | word => rw [memRead_word s hb] at h; cases h
  · rw [memRead_out s hb] at h; cases h; exact ⟨hb, rfl⟩

theorem memWrite_error {s : State} {a : Int} {n : Width} {v : Word} {c : FaultCause} (h : s.memWrite a n v = .error c) :
    ¬ inBounds a n ∧ c = .memoryOutOfRange a n := by
  by_cases hb : inBounds a n
  · cases n with
    | byte => rw [memWrite_byte s hb] at h; cases h
    | word => rw [memWrite_word s hb] at h; cases h
  · rw [memWrite_out s hb] at h; cases h; exact ⟨hb, rfl⟩

/-! ### The stack -/

/-- A push that lands: SP has moved down, DMEM changed only in the four bytes at the new SP, nothing else did. -/
theorem push_ok {s t : State} {v : Word} (h : s.push v = .ok t) :
    inBounds s.pushAddr .word ∧ t = { s.spDown with dmem := t.dmem } ∧ s.sameMemoryBut s.pushAddr .word t ∧
      (s.dmem.wf → t.dmem.wf) := by
  obtain ⟨hb, ht, hm, hw⟩ := memWrite_ok h
  exact ⟨hb, ht, fun k hk => hm k hk, hw⟩

theorem push_error {s : State} {v : Word} {c : FaultCause} (h : s.push v = .error c) :
    ¬ inBounds s.pushAddr .word ∧ c = .memoryOutOfRange s.pushAddr .word := memWrite_error h

/-- The push of a value whose address is in bounds. -/
theorem push_word (s : State) (h : inBounds s.pushAddr .word) (v : Word) :
    s.push v = .ok { s.spDown with dmem := s.dmem.writeWord s.config.byteOrder s.pushAddr.toNat v } :=
  memWrite_word s.spDown h v

theorem popRead_word (s : State) (h : inBounds s.popAddr .word) :
    s.popRead = .ok (s.dmem.readWord s.config.byteOrder s.popAddr.toNat) := memRead_word s h

theorem popRead_error {s : State} {c : FaultCause} (h : s.popRead = .error c) :
    ¬ inBounds s.popAddr .word ∧ c = .memoryOutOfRange s.popAddr .word := memRead_error h

/-- A push stays in bounds exactly for SP from 4 to 1024 (43_stack R190). -/
theorem pushAddr_inBounds (s : State) : inBounds s.pushAddr .word ↔ 4 ≤ s.sp.toInt ∧ s.sp.toInt ≤ 1024 := by
  simp only [inBounds, State.pushAddr, Width.bytes, memSize]; omega

/-- A pop stays in bounds exactly for SP from 0 to 1020 (43_stack R190). -/
theorem popAddr_inBounds (s : State) : inBounds s.popAddr .word ↔ 0 ≤ s.sp.toInt ∧ s.sp.toInt ≤ 1020 := by
  simp only [inBounds, State.popAddr, Width.bytes, memSize]; omega

end Sys2Proof.Machine
end

