-- ==== Sys2Proof/Laws/PerInstr.lean ====
section
/-! SUPPORT. Statements made per instruction. Family EncodeRow: the canonical word of an instruction matches its row of
spec/opcode_table.json, and every bit the row does not use is 0 (spec/30_encoding.md R87, R93). -/

namespace Sys2Proof.Laws

/-- The bits of a record's canonical word (30_encoding R93). -/
theorem encodeRecord_getLsbD (r : Record) (k : Nat) :
    (encodeRecord r).getLsbD k =
      if k < 16 then r.imm16.getLsbD k
      else if k < 17 then false
      else if k < 22 then r.rb.getLsbD (k - 17)
      else if k < 27 then r.ra.getLsbD (k - 22)
      else if k < 32 then r.op.getLsbD (k - 27)
      else false := by
  simp only [encodeRecord, BitVec.getLsbD_or, BitVec.getLsbD_shiftLeft, BitVec.getLsbD_setWidth]
  have h16 : ∀ j, 16 ≤ j → r.imm16.getLsbD j = false := fun j hj => BitVec.getLsbD_of_ge _ _ hj
  have hb : ∀ j, 5 ≤ j → r.rb.getLsbD j = false := fun j hj => BitVec.getLsbD_of_ge _ _ hj
  have ha : ∀ j, 5 ≤ j → r.ra.getLsbD j = false := fun j hj => BitVec.getLsbD_of_ge _ _ hj
  have ho : ∀ j, 5 ≤ j → r.op.getLsbD j = false := fun j hj => BitVec.getLsbD_of_ge _ _ hj
  split_ifs with c1 c2 c3 c4 c5
  · simp [show k < 27 by omega, show k < 22 by omega, show k < 17 by omega, show k < 32 by omega]
  · simp [show k < 27 by omega, show k < 22 by omega, show k < 17 by omega, h16 k (by omega)]
  · simp [show k < 27 by omega, show k < 22 by omega, show ¬ k < 17 by omega, show k < 32 by omega, h16 k (by omega),
      show k - 17 < 32 by omega]
  · simp [show k < 27 by omega, show ¬ k < 22 by omega, show k < 32 by omega, h16 k (by omega),
      hb (k - 17) (by omega), show k - 22 < 32 by omega]
  · simp [show ¬ k < 27 by omega, show k < 32 by omega, h16 k (by omega), hb (k - 17) (by omega),
      ha (k - 22) (by omega), show k - 27 < 32 by omega]
  · simp [show ¬ k < 32 by omega]

/-- The opcode field of a canonical word is the record's opcode. -/
theorem encodeRecord_op (r : Record) : (encodeRecord r).extractLsb' 27 5 = r.op := by
  apply BitVec.eq_of_getLsbD_eq
  intro i hi
  rw [BitVec.getLsbD_extractLsb', encodeRecord_getLsbD]
  simp [hi, show ¬ 27 + i < 16 by omega, show ¬ 27 + i < 17 by omega, show ¬ 27 + i < 22 by omega,
    show 27 + i < 32 by omega]

/-- The table's match of an instruction and the bits its row leaves unused (30_encoding R87, R93). -/
def EncodeRow.Statement (i : Instr) : Prop :=
  (encode i).extractLsb' 27 5 = i.opcode ∧ encode i &&& ~~~i.usedMask = 0

theorem EncodeRow.of_bits {i : Instr} (ho : i.record.op = i.opcode)
    (h : ∀ k, k < 32 → (encode i).getLsbD k = true → i.usedMask.getLsbD k = true) : EncodeRow.Statement i := by
  refine ⟨by rw [encode, encodeRecord_op, ho], ?_⟩
  apply BitVec.eq_of_getLsbD_eq
  intro k hk
  by_cases he : (encode i).getLsbD k = true
  · simp [h k hk he]
  · simp [he]

theorem EncodeRow.subl (ra : Field5) (imm : Imm16) : EncodeRow.Statement (.subl ra imm) := by
  refine EncodeRow.of_bits rfl fun k hk he => ?_
  rw [encode, encodeRecord_getLsbD] at he
  interval_cases k <;> first | (simp only [Instr.usedMask]; decide) | simp [Instr.record, Instr.opcode] at he

theorem EncodeRow.addlRegReg (ra : Field5) (rb : Field5) : EncodeRow.Statement (.addlRegReg ra rb) := by
  refine EncodeRow.of_bits rfl fun k hk he => ?_
  rw [encode, encodeRecord_getLsbD] at he
  interval_cases k <;> first | (simp only [Instr.usedMask]; decide) | simp [Instr.record, Instr.opcode] at he

theorem EncodeRow.addlImmReg (ra : Field5) (imm : Imm16) : EncodeRow.Statement (.addlImmReg ra imm) := by
  refine EncodeRow.of_bits rfl fun k hk he => ?_
  rw [encode, encodeRecord_getLsbD] at he
  interval_cases k <;> first | (simp only [Instr.usedMask]; decide) | simp [Instr.record, Instr.opcode] at he

theorem EncodeRow.imull (ra : Field5) (rb : Field5) : EncodeRow.Statement (.imull ra rb) := by
  refine EncodeRow.of_bits rfl fun k hk he => ?_
  rw [encode, encodeRecord_getLsbD] at he
  interval_cases k <;> first | (simp only [Instr.usedMask]; decide) | simp [Instr.record, Instr.opcode] at he

theorem EncodeRow.shrl (ra : Field5) : EncodeRow.Statement (.shrl ra) := by
  refine EncodeRow.of_bits rfl fun k hk he => ?_
  rw [encode, encodeRecord_getLsbD] at he
  interval_cases k <;> first | (simp only [Instr.usedMask]; decide) | simp [Instr.record, Instr.opcode] at he

theorem EncodeRow.movlRegReg (ra : Field5) (rb : Field5) : EncodeRow.Statement (.movlRegReg ra rb) := by
  refine EncodeRow.of_bits rfl fun k hk he => ?_
  rw [encode, encodeRecord_getLsbD] at he
  interval_cases k <;> first | (simp only [Instr.usedMask]; decide) | simp [Instr.record, Instr.opcode] at he

theorem EncodeRow.movlDerefReg (ra : Field5) (rb : Field5) (imm : Imm16) : EncodeRow.Statement (.movlDerefReg ra rb imm) := by
  refine EncodeRow.of_bits rfl fun k hk he => ?_
  rw [encode, encodeRecord_getLsbD] at he
  interval_cases k <;> first | (simp only [Instr.usedMask]; decide) | simp at he

theorem EncodeRow.movlRegDeref (ra : Field5) (rb : Field5) (imm : Imm16) : EncodeRow.Statement (.movlRegDeref ra rb imm) := by
  refine EncodeRow.of_bits rfl fun k hk he => ?_
  rw [encode, encodeRecord_getLsbD] at he
  interval_cases k <;> first | (simp only [Instr.usedMask]; decide) | simp at he

theorem EncodeRow.movlImmReg (ra : Field5) (imm8 : Byte) : EncodeRow.Statement (.movlImmReg ra imm8) := by
  refine EncodeRow.of_bits rfl fun k hk he => ?_
  rw [encode, encodeRecord_getLsbD] at he
  interval_cases k <;> first | (simp only [Instr.usedMask]; decide) | simp [Instr.record, Instr.opcode] at he

theorem EncodeRow.cmpl (ra : Field5) (rb : Field5) : EncodeRow.Statement (.cmpl ra rb) := by
  refine EncodeRow.of_bits rfl fun k hk he => ?_
  rw [encode, encodeRecord_getLsbD] at he
  interval_cases k <;> first | (simp only [Instr.usedMask]; decide) | simp [Instr.record, Instr.opcode] at he

theorem EncodeRow.je (imm : Imm16) : EncodeRow.Statement (.je imm) := by
  refine EncodeRow.of_bits rfl fun k hk he => ?_
  rw [encode, encodeRecord_getLsbD] at he
  interval_cases k <;> first | (simp only [Instr.usedMask]; decide) | simp [Instr.record, Instr.opcode] at he

theorem EncodeRow.jl (imm : Imm16) : EncodeRow.Statement (.jl imm) := by
  refine EncodeRow.of_bits rfl fun k hk he => ?_
  rw [encode, encodeRecord_getLsbD] at he
  interval_cases k <;> first | (simp only [Instr.usedMask]; decide) | simp [Instr.record, Instr.opcode] at he

theorem EncodeRow.jle (imm : Imm16) : EncodeRow.Statement (.jle imm) := by
  refine EncodeRow.of_bits rfl fun k hk he => ?_
  rw [encode, encodeRecord_getLsbD] at he
  interval_cases k <;> first | (simp only [Instr.usedMask]; decide) | simp [Instr.record, Instr.opcode] at he

theorem EncodeRow.jge (imm : Imm16) : EncodeRow.Statement (.jge imm) := by
  refine EncodeRow.of_bits rfl fun k hk he => ?_
  rw [encode, encodeRecord_getLsbD] at he
  interval_cases k <;> first | (simp only [Instr.usedMask]; decide) | simp [Instr.record, Instr.opcode] at he

theorem EncodeRow.jbe (imm : Imm16) : EncodeRow.Statement (.jbe imm) := by
  refine EncodeRow.of_bits rfl fun k hk he => ?_
  rw [encode, encodeRecord_getLsbD] at he
  interval_cases k <;> first | (simp only [Instr.usedMask]; decide) | simp [Instr.record, Instr.opcode] at he

theorem EncodeRow.jmp (imm : Imm16) : EncodeRow.Statement (.jmp imm) := by
  refine EncodeRow.of_bits rfl fun k hk he => ?_
  rw [encode, encodeRecord_getLsbD] at he
  interval_cases k <;> first | (simp only [Instr.usedMask]; decide) | simp [Instr.record, Instr.opcode] at he

theorem EncodeRow.call (imm : Imm16) : EncodeRow.Statement (.call imm) := by
  refine EncodeRow.of_bits rfl fun k hk he => ?_
  rw [encode, encodeRecord_getLsbD] at he
  interval_cases k <;> first | (simp only [Instr.usedMask]; decide) | simp [Instr.record, Instr.opcode] at he

theorem EncodeRow.ret : EncodeRow.Statement (.ret) := by
  refine EncodeRow.of_bits rfl fun k hk he => ?_
  rw [encode, encodeRecord_getLsbD] at he
  interval_cases k <;> first | (simp only [Instr.usedMask]; decide) | simp [Instr.record, Instr.opcode] at he

theorem EncodeRow.pushl (ra : Field5) : EncodeRow.Statement (.pushl ra) := by
  refine EncodeRow.of_bits rfl fun k hk he => ?_
  rw [encode, encodeRecord_getLsbD] at he
  interval_cases k <;> first | (simp only [Instr.usedMask]; decide) | simp [Instr.record, Instr.opcode] at he

theorem EncodeRow.popl (ra : Field5) : EncodeRow.Statement (.popl ra) := by
  refine EncodeRow.of_bits rfl fun k hk he => ?_
  rw [encode, encodeRecord_getLsbD] at he
  interval_cases k <;> first | (simp only [Instr.usedMask]; decide) | simp [Instr.record, Instr.opcode] at he

theorem EncodeRow.printr (ra : Field5) : EncodeRow.Statement (.printr ra) := by
  refine EncodeRow.of_bits rfl fun k hk he => ?_
  rw [encode, encodeRecord_getLsbD] at he
  interval_cases k <;> first | (simp only [Instr.usedMask]; decide) | simp [Instr.record, Instr.opcode] at he

theorem EncodeRow.readr (ra : Field5) : EncodeRow.Statement (.readr ra) := by
  refine EncodeRow.of_bits rfl fun k hk he => ?_
  rw [encode, encodeRecord_getLsbD] at he
  interval_cases k <;> first | (simp only [Instr.usedMask]; decide) | simp [Instr.record, Instr.opcode] at he

end Sys2Proof.Laws
end

