-- ==== Sys2Proof/Laws/Step.lean ====
section
/-! SUPPORT. What a fetch and a step can do, said once. -/

namespace Sys2Proof.Machine

/-- The fetch finds the word at pc exactly where pc is a multiple of 4 below 4N. -/
theorem fetch_word {s : State} {w : Word} (h : s.fetched = some w) : fetch s = .word w := by
  unfold State.fetched at h
  split at h
  · rename_i h4
    obtain ⟨hk, hw⟩ := List.getElem?_eq_some_iff.mp h
    have h0 : ¬ s.pc.toNat = 4 * s.imem.length := by omega
    have h1 : ¬ s.pc.toNat > 4 * s.imem.length := by omega
    simp [fetch, h0, h1, h4, hw]
  · cases h

/-- The four things a fetch can find, each with its condition (30_encoding R95). -/
theorem fetch_cases (s : State) :
    (fetch s = .endOfStream ∧ s.pc.toNat = 4 * s.imem.length) ∨
    (fetch s = .fault .fetchOutOfRange ∧ 4 * s.imem.length < s.pc.toNat) ∨
    (fetch s = .fault .fetchMisaligned ∧ s.pc.toNat < 4 * s.imem.length ∧ s.pc.toNat % 4 ≠ 0) ∨
    (∃ w, fetch s = .word w ∧ s.fetched = some w ∧ s.pc.toNat < 4 * s.imem.length ∧ s.pc.toNat % 4 = 0) := by
  by_cases h0 : s.pc.toNat = 4 * s.imem.length
  · exact .inl ⟨by simp [fetch, h0], h0⟩
  by_cases h1 : s.pc.toNat > 4 * s.imem.length
  · exact .inr (.inl ⟨by simp [fetch, h0, h1], h1⟩)
  by_cases h4 : s.pc.toNat % 4 = 0
  · have hk : s.pc.toNat / 4 < s.imem.length := by omega
    have hf : s.fetched = some (s.imem[s.pc.toNat / 4]) := by simp [State.fetched, h4, hk]
    exact .inr (.inr (.inr ⟨_, fetch_word hf, hf, by omega, h4⟩))
  · exact .inr (.inr (.inl ⟨by simp [fetch, h0, h1, h4], by omega, h4⟩))

/-- What a step from Running can do (30_encoding R100). -/
theorem step_running {s : State} (h : s.status = .running) :
    (s.pc.toNat = 4 * s.imem.length ∧ step s = .next s.halt) ∨
    (4 * s.imem.length < s.pc.toNat ∧ step s = raise .fetchOutOfRange s) ∨
    (s.pc.toNat < 4 * s.imem.length ∧ s.pc.toNat % 4 ≠ 0 ∧ step s = raise .fetchMisaligned s) ∨
    (∃ w, s.fetched = some w ∧
      ((∃ e, decode w = .error e ∧ step s = raise (decodeFault e) s) ∨ (∃ i, decode w = .ok i ∧ step s = exec i s))) := by
  rcases fetch_cases s with ⟨hf, hc⟩ | ⟨hf, hc⟩ | ⟨hf, hc, h4⟩ | ⟨w, hf, hw, -, -⟩
  · exact .inl ⟨hc, by simp [step, h, hf]⟩
  · exact .inr (.inl ⟨hc, by simp [step, h, hf]⟩)
  · exact .inr (.inr (.inl ⟨hc, h4, by simp [step, h, hf]⟩))
  · refine .inr (.inr (.inr ⟨w, hw, ?_⟩))
    cases hd : decode w with
    | error e => exact .inl ⟨e, rfl, by simp [step, h, hf, hd]⟩
    | ok i => exact .inr ⟨i, rfl, by simp [step, h, hf, hd]⟩

/-- A step with a next state starts from Running (30_encoding R94). -/
theorem step_next_running {s t : State} (h : step s = .next t) : s.status = .running := by
  unfold step at h
  split at h
  · cases h
  · cases h
  · assumption

end Sys2Proof.Machine
end

