-- ==== Sys2Proof/Machine/Assembly.lean ====
section
/-! DEFINITION. The assembler's reading of one line (spec/30_encoding.md R91 to R93). A notation, no part of the
hardware (spec/92_eei_decisions.md D15); no step uses it. -/

namespace Sys2Proof.Machine

/-- The operand forms of the table of 30_encoding R91. -/
inductive AsmForm where
  | regImm
  | regReg
  | reg
  | regRegImm
  | offset
  | none
  deriving DecidableEq, Repr

/-- A mnemonic's opcode and operand form (30_encoding R87, R91). There are no pseudo-instructions (R92). -/
def asmTable : List (List Char × Field5 × AsmForm) :=
  [("subl".toList, 0, .regImm), ("addl_reg_reg".toList, 1, .regReg), ("addl_imm_reg".toList, 2, .regImm),
   ("imull".toList, 3, .regReg), ("shrl".toList, 4, .reg), ("movl_reg_reg".toList, 5, .regReg),
   ("movl_deref_reg".toList, 6, .regRegImm), ("movl_reg_deref".toList, 7, .regRegImm),
   ("movl_imm_reg".toList, 8, .regImm), ("cmpl".toList, 9, .regReg), ("je".toList, 10, .offset),
   ("jl".toList, 11, .offset), ("jle".toList, 12, .offset), ("jge".toList, 13, .offset), ("jbe".toList, 14, .offset),
   ("jmp".toList, 15, .offset), ("call".toList, 16, .offset), ("ret".toList, 17, .none), ("pushl".toList, 18, .reg),
   ("popl".toList, 19, .reg), ("printr".toList, 20, .reg), ("readr".toList, 21, .reg)]

/-- A register, `r0` to `r15` (30_encoding R91). -/
def asmReg (t : List Char) : Option Field5 :=
  ((List.range 16).find? fun k => t == 'r' :: Nat.toDigits 10 k).map (BitVec.ofNat 5)

/-- The value of a hexadecimal digit, of either case (log 15). -/
def hexDigit (c : Char) : Option Nat :=
  if '0' ≤ c ∧ c ≤ '9' then some (c.toNat - 48)
  else if 'a' ≤ c ∧ c ≤ 'f' then some (c.toNat - 87)
  else if 'A' ≤ c ∧ c ≤ 'F' then some (c.toNat - 55)
  else none

/-- A number without a sign: decimal, or hexadecimal with a `0x` prefix (30_encoding R91). -/
def asmNat : List Char → Option Nat
  | '0' :: 'x' :: cs => digits hexDigit 16 cs
  | cs => digits decDigit 10 cs

/-- An integer with an optional leading `-` (30_encoding R91). -/
def asmInt : List Char → Option Int
  | '-' :: cs => (asmNat cs).map fun n => -(n : Int)
  | cs => (asmNat cs).map fun n => (n : Int)

/-- An immediate in −32768 to 65535, encoded as `imm & 0xFFFF` (30_encoding R91). -/
def asmImm16 (z : Int) : Option Imm16 := if -32768 ≤ z ∧ z ≤ 65535 then some (BitVec.ofInt 16 z) else none

/-- The offset of a branch or call at pc: a number, or a label L standing for `L − (pc + 4)` (30_encoding R91). -/
def asmOffset (labels : List (List Char × Nat)) (pc : Nat) (t : List Char) : Option Int :=
  match asmInt t with
  | some z => some z
  | none => (labels.lookup t).map fun l => (l : Int) - ((pc : Int) + 4)

/-- A text without the whitespace at its two ends. -/
def trim (t : List Char) : List Char :=
  ((t.dropWhile Char.isWhitespace).reverse.dropWhile Char.isWhitespace).reverse

/-- The parts of a text between its commas. -/
def splitCommas (t : List Char) : List (List Char) :=
  t.foldr (fun c parts => if c = ',' then [] :: parts else (c :: parts.headD []) :: parts.tail) [[]]

/-- The fields of a line's operands by its form, in field order ra, rb, imm (30_encoding R91). -/
def asmOperands (labels : List (List Char × Nat)) (pc : Nat) (op : Field5) (f : AsmForm) (ops : List (List Char)) :
    Option Record :=
  match f, ops with
  | .regImm, [a, i] => do
    let imm ← (asmInt i).bind asmImm16
    return { op := op, ra := ← asmReg a, rb := 0, imm16 := imm }
  | .regReg, [a, b] => return { op := op, ra := ← asmReg a, rb := ← asmReg b, imm16 := 0 }
  | .reg, [a] => return { op := op, ra := ← asmReg a, rb := 0, imm16 := 0 }
  | .regRegImm, [a, b, i] => do
    let imm ← (asmInt i).bind asmImm16
    return { op := op, ra := ← asmReg a, rb := ← asmReg b, imm16 := imm }
  | .offset, [i] => do
    let imm ← (asmOffset labels pc i).bind asmImm16
    return { op := op, ra := 0, rb := 0, imm16 := imm }
  | .none, [] => some { op := op, ra := 0, rb := 0, imm16 := 0 }
  | _, _ => none

/-- The canonical word of one line at offset pc: the mnemonic, then the operands separated by commas; `;` starts a
comment (30_encoding R91, R93). A line that is no instruction gives none. -/
def assembleLine (labels : List (List Char × Nat)) (pc : Nat) (line : List Char) : Option Word := do
  let code := trim (line.takeWhile fun c => c != ';')
  let name := code.takeWhile fun c => !c.isWhitespace
  let rest := trim (code.dropWhile fun c => !c.isWhitespace)
  let (op, form) ← asmTable.lookup name
  let r ← asmOperands labels pc op form (if rest.isEmpty then [] else (splitCommas rest).map trim)
  return encodeRecord r

end Sys2Proof.Machine
end

