-- ==== Sys2Proof/Tests/Slice0.lean ====
section
/-! SUPPORT. The model's own tests. Expected values come from spec/95_test_vectors.md (the vector's id stands before a
test) or are written out from the encoding of spec/30_encoding.md R81, R87. -/

namespace Sys2Proof.Tests

open Sys2Proof.Machine

/-- The reset state with one instruction word loaded. -/
def load1 (w : Word) : State := { State.reset with imem := [w] }

/-- The state after one step, or the state itself where there is no step. -/
def after (s : State) : State := s.run 1

/-- The fault cause a state has taken. -/
def causeOf (s : State) : Option FaultCause :=
  match s.status with
  | .faulted info => some info.cause
  | _ => none

/-! ## WellFormed: an ill-formed term for each check (R86) -/

theorem test_wf_refuses_ra :
    ([.subl 16 0, .addlRegReg 16 0, .addlImmReg 17 0, .imull 31 0, .shrl 16, .movlRegReg 16 0, .movlDerefReg 16 0 0,
      .movlRegDeref 16 0 0, .movlImmReg 16 0, .cmpl 16 0, .pushl 17, .popl 16, .printr 16, .readr 16] : List Instr).all
      (fun i => !i.wellFormed) = true := by decide

theorem test_wf_refuses_rb :
    ([.addlRegReg 0 16, .imull 0 16, .movlRegReg 0 31, .movlDerefReg 0 16 0, .movlRegDeref 0 16 0, .cmpl 0 17] :
      List Instr).all (fun i => !i.wellFormed) = true := by decide

theorem test_wf_accepts :
    ([.subl 15 0xFFFF, .addlRegReg 15 15, .movlDerefReg 6 15 0x8000, .je 0x8000, .ret, .popl 6] : List Instr).all
      (fun i => i.wellFormed) = true := by decide

/-! ## Decoding: one word for each constructor, its bits written op, ra, rb, bit 16, imm16 (R81, R87) -/

theorem test_decode_subl : decode 0b00000_00011_00000_0_0000000000000101#32 = .ok (.subl 3 5) := by decide
theorem test_decode_addlRegReg : decode 0b00001_00000_00001_0_0000000000000000#32 = .ok (.addlRegReg 0 1) := by decide
theorem test_decode_addlImmReg : decode 0b00010_00010_00000_0_1111111111111111#32 = .ok (.addlImmReg 2 0xFFFF) := by
  decide
theorem test_decode_imull : decode 0b00011_01111_01110_0_0000000000000000#32 = .ok (.imull 15 14) := by decide
theorem test_decode_shrl : decode 0b00100_00011_00000_0_0000000000000000#32 = .ok (.shrl 3) := by decide
theorem test_decode_movlRegReg : decode 0b00101_00000_00010_0_0000000000000000#32 = .ok (.movlRegReg 0 2) := by decide
theorem test_decode_movlDerefReg : decode 0b00110_00001_00010_0_0000000000000011#32 = .ok (.movlDerefReg 1 2 3) := by
  decide
theorem test_decode_movlRegDeref : decode 0b00111_00000_00001_0_0000000000000011#32 = .ok (.movlRegDeref 0 1 3) := by
  decide
theorem test_decode_movlImmReg : decode 0b01000_00000_00000_0_0000000111111111#32 = .ok (.movlImmReg 0 0xFF) := by
  decide
theorem test_decode_cmpl : decode 0b01001_00000_00001_0_0000000000000000#32 = .ok (.cmpl 0 1) := by decide
theorem test_decode_je : decode 0b01010_00000_00000_0_0000000000001000#32 = .ok (.je 8) := by decide
theorem test_decode_jl : decode 0b01011_00000_00000_0_1111111111111000#32 = .ok (.jl 0xFFF8) := by decide
theorem test_decode_jle : decode 0b01100_00000_00000_0_0000000000000100#32 = .ok (.jle 4) := by decide
theorem test_decode_jge : decode 0b01101_00000_00000_0_0000000000001100#32 = .ok (.jge 12) := by decide
theorem test_decode_jbe : decode 0b01110_00000_00000_0_0000000000000100#32 = .ok (.jbe 4) := by decide
theorem test_decode_jmp : decode 0b01111_00000_00000_0_1111111111101100#32 = .ok (.jmp 0xFFEC) := by decide
theorem test_decode_call : decode 0b10000_00000_00000_0_0000000000001000#32 = .ok (.call 8) := by decide
theorem test_decode_ret : decode 0b10001_00000_00000_0_0000000000000000#32 = .ok .ret := by decide
theorem test_decode_pushl : decode 0b10010_00110_00000_0_0000000000000000#32 = .ok (.pushl 6) := by decide
theorem test_decode_popl : decode 0b10011_00001_00000_0_0000000000000000#32 = .ok (.popl 1) := by decide
theorem test_decode_printr : decode 0b10100_00110_00000_0_0000000000000000#32 = .ok (.printr 6) := by decide
theorem test_decode_readr : decode 0b10101_00010_00000_0_0000000000000000#32 = .ok (.readr 2) := by decide

/-- R88: every opcode from 22 to 31 is rejected by name. -/
theorem test_decode_illegal :
    ((List.range 10).all fun k =>
      decode (BitVec.ofNat 32 ((22 + k) * 2 ^ 27 + 12345)) == .error (.illegalOpcode (BitVec.ofNat 5 (22 + k)))) = true := by
  decide

/-- L1-1: bit 16 is dropped, every other field comes back. -/
theorem test_reencode_L1_1 : encodeRecord (decodeRecord 0x10010001#32) = 0x10000001#32 := by decide

/-- The canonical words of P1 (R93). -/
theorem test_encode_P1 :
    [Instr.movlImmReg 1 5, .imull 1 0, .subl 1 1, .cmpl 2 1, .jle 4, .jmp 0xFFEC, .printr 0].map encode =
      [0x40400005#32, 0x18400000#32, 0x00400001#32, 0x48820000#32, 0x60000004#32, 0x7800FFEC#32, 0xA0000000#32] := by
  decide

/-! ## One step from a small state (95_test_vectors L2) -/

/-- B3: 0x80000000 − 1 wraps. -/
theorem test_subl_B3 : ((after ((load1 0x00000001).setGpr 0 0x80000000)).gpr 0) = 0x7FFFFFFF#32 := by decide
/-- B4: subtracting −1 adds 1; under zext it subtracts 65535. -/
theorem test_subl_B4 :
    (after (load1 0x0000FFFF)).gpr 0 = 1#32 ∧
    (after { load1 0x0000FFFF with config := { Config.default with immExt := .zext } }).gpr 0 = 0xFFFF0001#32 := by
  decide
/-- B8: r1 += r0. -/
theorem test_addlRegReg_B8 :
    let t := after (((load1 0x08020000).setGpr 0 5).setGpr 1 3)
    t.gpr 1 = 8#32 ∧ t.gpr 0 = 5#32 ∧ t.pc = 4#32 := by decide
/-- B11: a register added to itself doubles, modulo 2^32. -/
theorem test_addlRegReg_B11 : (after ((load1 0x08000000).setGpr 0 0x80000000)).gpr 0 = 0#32 := by decide
/-- B16: adding −32768. -/
theorem test_addlImmReg_B16 : (after (load1 0x10008000)).gpr 0 = 0xFFFF8000#32 := by decide
/-- A5: bit 16 of the word is ignored. -/
theorem test_addlImmReg_A5 : (after (load1 0x10010001)).gpr 0 = 1#32 := by decide
/-- B20: −2^31 times −1. -/
theorem test_imull_B20 :
    (after (((load1 0x18020000).setGpr 0 0xFFFFFFFF).setGpr 1 0x80000000)).gpr 1 = 0x80000000#32 := by decide
/-- B22: −3 times 5. -/
theorem test_imull_B22 : (after (((load1 0x18020000).setGpr 0 5).setGpr 1 0xFFFFFFFD)).gpr 1 = 0xFFFFFFF1#32 := by decide
/-- B26: the shift is logical. -/
theorem test_shrl_B26 : (after ((load1 0x20000000).setGpr 0 0xFFFFFFFF)).gpr 0 = 0x7FFFFFFF#32 := by decide
/-- B28: the bit shifted out goes nowhere. -/
theorem test_shrl_B28 :
    let t := after (((load1 0x20000000).setGpr 0 1).setFlags 0x40)
    t.gpr 0 = 0#32 ∧ t.flags = 0x40#32 := by decide
/-- C1: all 32 bits are copied, from ra to rb. -/
theorem test_movlRegReg_C1 :
    let t := after ((load1 0x28040000).setGpr 0 0xFFFFFFFF)
    t.gpr 2 = 0xFFFFFFFF#32 ∧ t.gpr 0 = 0xFFFFFFFF#32 := by decide
/-- C2: r6 is SP. -/
theorem test_movlRegReg_C2 : (after (load1 0x29800000)).gpr 0 = 1024#32 := by decide
/-- C3: the last byte of DMEM, zero-extended. -/
theorem test_movlDerefReg_C3 :
    (after { (load1 0x30440000).setGpr 1 1023 with dmem := [(1023, 0x9C)] }).gpr 2 = 0x9C#32 := by decide
/-- C8: the address is an exact sum, 2^31. -/
theorem test_movlDerefReg_C8 :
    causeOf (after ((load1 0x30440001).setGpr 1 0x7FFFFFFF)) = some (.memoryOutOfRange 2147483648 .byte) := by decide
/-- C11: base rb, displacement −1, low byte of ra. -/
theorem test_movlRegDeref_C11 :
    (after (((load1 0x3802FFFF).setGpr 0 0x5A).setGpr 1 1)).dmem = [(0, 0x5A)] := by decide
/-- C12: no byte is written. -/
theorem test_movlRegDeref_C12 :
    let t := after (((load1 0x38400003).setGpr 0 1021).setGpr 1 0x1234)
    causeOf t = some (.memoryOutOfRange 1024 .byte) ∧ t.dmem = [] := by decide
/-- C16: 8 bits, zero-extended. -/
theorem test_movlImmReg_C16 : (after (load1 0x4000FFFF)).gpr 0 = 0xFF#32 := by decide
/-- A3: index 16 faults at execution. -/
theorem test_movlImmReg_A3 : causeOf (after (load1 0x44000000)) = some (.illegalRegister .ra 16) := by decide

/-- L2-D, rows D1 to D20: a, b and the FLAGS word of cmpl. -/
theorem test_cmpl_flags_table :
    ([(0x5, 0x5, 0x40), (0x5, 0x3, 0x81), (0x3, 0x5, 0x0), (0xffffffff, 0x1, 0x1), (0x1, 0xffffffff, 0x80),
      (0x1, 0x80000000, 0x800), (0xffffffff, 0x7fffffff, 0x881), (0x80000000, 0x0, 0x81), (0x0, 0x0, 0x40),
      (0x0, 0x80000000, 0x80), (0x80000000, 0x80000000, 0x40), (0x7fffffff, 0x80000000, 0x800),
      (0x80000000, 0x7fffffff, 0x881), (0x1, 0x0, 0x81), (0x0, 0xffffffff, 0x80), (0xffffffff, 0x0, 0x1),
      (0x0, 0x1, 0x0), (0x7fffffff, 0xffffffff, 0x80), (0xffffffff, 0xffffffff, 0x40),
      (0x7fffffff, 0x7fffffff, 0x40)] : List (Word × Word × Word)).all
      (fun r => cmplFlags r.1 r.2.1 == r.2.2) = true := by decide
/-- D3: every bit of FLAGS is rewritten. -/
theorem test_cmpl_rewrites :
    (after ((((load1 0x48020000).setGpr 0 3).setGpr 1 5).setFlags 0x8C1)).flags = 0#32 := by decide

/-- A state at an offset with a FLAGS word, to run one branch from. -/
def branchFrom (pc flags : Word) : State := { State.reset.setFlags flags with pc := pc }

/-- The pc after an instruction. -/
def pcAfter (i : Instr) (s : State) : Option Word :=
  match exec i s with
  | .next t => some t.pc
  | _ => none

/-- E1, E2. -/
theorem test_je : pcAfter (.je 8) (branchFrom 8 0x40) = some 20 ∧ pcAfter (.je 8) (branchFrom 8 0x81) = some 12 := by decide
/-- E3, E4, E5. -/
theorem test_jl : pcAfter (.jl 0xFFF8) (branchFrom 12 0x81) = some 8 ∧
    pcAfter (.jl 0xFFF8) (branchFrom 12 0x881) = some 16 ∧ pcAfter (.jl 0xFFF8) (branchFrom 12 0x800) = some 8 := by decide
/-- E6, E7. -/
theorem test_jle : pcAfter (.jle 4) (branchFrom 24 0x40) = some 32 ∧ pcAfter (.jle 4) (branchFrom 24 0) = some 28 := by
  decide
/-- E8, E9. -/
theorem test_jge : pcAfter (.jge 12) (branchFrom 0 0) = some 16 ∧ pcAfter (.jge 12) (branchFrom 0 0x81) = some 4 := by decide
/-- E10, E11. -/
theorem test_jbe : pcAfter (.jbe 4) (branchFrom 4 1) = some 12 ∧ pcAfter (.jbe 4) (branchFrom 4 0x80) = some 8 := by decide
/-- E12 and A6: a target below 0 wraps. -/
theorem test_jmp : pcAfter (.jmp 0xFFEC) (branchFrom 28 0) = some 12 ∧
    pcAfter (.jmp 0xFFF8) (branchFrom 0 0) = some 0xFFFFFFFC := by decide
/-- E16: the reach under sext and under zext. -/
theorem test_je_E16 : pcAfter (.je 0x8000) (branchFrom 0 0x40) = some 0xFFFF8004 ∧
    pcAfter (.je 0x8000) { branchFrom 0 0x40 with config := { Config.default with immExt := .zext } } = some 32772 := by
  decide

/-- L1-5: the call of `call 0; ret`, at pc 0. -/
theorem test_call_L1_5 :
    let t := after { State.reset with imem := [0x80000000, 0x88000000] }
    t.dmem = [(1020, 4)] ∧ t.sp = 1020#32 ∧ t.pc = 4#32 := by decide
/-- F2: nothing is written. -/
theorem test_call_F2 :
    let t := after ((load1 0x80000000).setSp 3)
    causeOf t = some (.memoryOutOfRange (-1) .word) ∧ t.sp = 3#32 ∧ t.dmem = [] := by decide
/-- F4: a return. -/
theorem test_ret_F4 :
    let t := after { (load1 0x88000000).setSp 1020 with dmem := [(1020, 8)] }
    t.pc = 8#32 ∧ t.sp = 1024#32 := by decide
/-- F5, F6: the sentinel halts, 1021 faults. -/
theorem test_ret_F5_F6 :
    after (load1 0x88000000) = (load1 0x88000000).halt ∧
    causeOf (after ((load1 0x88000000).setSp 1021)) = some (.memoryOutOfRange 1021 .word) := by decide
/-- F10: the two byte orders. -/
theorem test_pushl_F10 :
    (after (((load1 0x90000000).setSp 4).setGpr 0 0x11223344)).dmem = [(0, 0x44), (1, 0x33), (2, 0x22), (3, 0x11)] ∧
    (after { ((load1 0x90000000).setSp 4).setGpr 0 0x11223344 with
      config := { Config.default with byteOrder := .big } }).dmem = [(0, 0x11), (1, 0x22), (2, 0x33), (3, 0x44)] := by
  decide
/-- F14: pushl r6 stores the decremented SP. -/
theorem test_pushl_F14 :
    let t := after (load1 0x91800000)
    t.sp = 1020#32 ∧ t.dmem = [(1020, 0xFC), (1021, 0x03)] := by decide
/-- F15: a pop. -/
theorem test_popl_F15 :
    let t := after { (load1 0x98400000).setSp 1020 with dmem := [(1020, 0x2A)] }
    t.gpr 1 = 42#32 ∧ t.sp = 1024#32 := by decide
/-- F16, F17: an empty stack faults; popl r6 leaves the loaded value plus 4. -/
theorem test_popl_F16_F17 :
    causeOf (after (load1 0x98400000)) = some (.memoryOutOfRange 1024 .word) ∧
    (after { (load1 0x99800000).setSp 1020 with dmem := [(1020, 0x10)] }).sp = 0x14#32 := by decide
/-- G1, G5. -/
theorem test_printr : (after ((load1 0xA0000000).setGpr 0 0xFFFFFFFF)).output = [0xFFFFFFFF#32] ∧
    (after (load1 0xA1800000)).output = [1024#32] := by decide
/-- G6: the next answer is −7. -/
theorem test_readr_G6 :
    let t := after ((load1 0xA8800000).withAnswer (.value 0xFFFFFFF9))
    t.gpr 2 = 0xFFFFFFF9#32 ∧ t.input = [] ∧ t.pc = 4#32 := by decide
/-- G11, G12 and A11: fail faults, no answer waits, the register check comes first. -/
theorem test_readr_stops :
    causeOf (after ((load1 0xA8000000).withAnswer .fail)) = some .inputError ∧
    after (load1 0xA8000000) = load1 0xA8000000 ∧
    causeOf (after (load1 0xAC000000)) = some (.illegalRegister .ra 16) := by decide

/-! ## Fetch, faults and the end of a run -/

/-- A1: the fault is recorded with pc, word and op, and nothing else changes. -/
theorem test_illegal_opcode_A1 :
    after (load1 0xB0000000) =
      { load1 0xB0000000 with
        status := .faulted { cause := .illegalOpcode 22, pc := 0, word := some 0xB0000000 } } := by decide
/-- A6, A7: the two fetch faults. -/
theorem test_fetch_faults :
    causeOf (after { load1 0x7800FFF8 with pc := 0xFFFFFFFC }) = some .fetchOutOfRange ∧
    causeOf (after { State.reset with imem := [0x50000002, 0], pc := 6 }) = some .fetchMisaligned := by decide
/-- A9, A10: an empty program halts; the register check comes before the memory check. -/
theorem test_end_and_priority :
    after State.reset = State.reset.halt ∧
    causeOf (after ((load1 0x94400000).setSp 0)) = some (.illegalRegister .ra 17) := by decide
/-- A word placed at the fetch after reset is the one that runs. -/
theorem test_withFetchWord :
    (State.reset.withFetchWord 32 0x40000005).run 1 =
      { State.reset.setGpr 0 5 with imem := [0x40000005], pc := 4 } ∧
    decodeTableWord 32 0x40000005 = some (.movlImmReg 0 5) := by decide

/-! ## The host's side -/

/-- L1-9 and L1-6: a length of 6 is refused, the program of L1-6 loads. -/
theorem test_load :
    loadProgram .little [1, 2, 3, 4, 5, 6] = .error (.lengthNotMultipleOf4 6) ∧
    loadProgram .little [0x05, 0x00, 0x00, 0x40, 0x03, 0x00, 0x40, 0x40] = .ok [0x40000005, 0x40400003] ∧
    loadProgram .big [0x40, 0x00, 0x00, 0x05] = .ok [0x40000005] := by decide
/-- G1 to G3: the printr line. -/
theorem test_printr_line :
    printrLine 0xFFFFFFFF = "-1 (0xffffffff)\n".toList ∧ printrLine 0 = "0 (0x0)\n".toList ∧
    printrLine 0x80000000 = "-2147483648 (0x80000000)\n".toList := by decide
/-- G7 to G11: the readr token. -/
theorem test_readr_token :
    (hostAnswer " +12 7".toList).1 = .value 12 ∧ tokenAnswer "-2147483648".toList = .value 0x80000000 ∧
    tokenAnswer "2147483648".toList = .fail ∧ tokenAnswer "12x".toList = .fail ∧ (hostAnswer []).1 = .fail := by decide
/-- Lines of P1 and P3. -/
theorem test_assemble :
    assembleLine [] 0 "movl_reg_deref r0, r1, 3 ; store".toList = some 0x38020003 ∧
    assembleLine [("loop".toList, 12)] 28 "jmp loop".toList = some 0x7800FFEC ∧
    assembleLine [] 0 "movl_imm_reg r0, 0xAB".toList = some 0x400000AB ∧
    assembleLine [] 0 "ret".toList = some 0x88000000 ∧ assembleLine [] 0 "pushl r16".toList = none := by decide

/-! ## Witnesses: for each obligation with hypotheses, concrete terms that meet them, at the bounds of each clause.
Where a clause's hypothesis names a next state, the equation is shown. -/

/-- A state whose SP holds v. -/
def spAt (v : Word) : State := State.reset.setSp v

/-- A state whose pc is p, with two words loaded, the first one w. -/
def at2 (w p : Word) : State := { State.reset with imem := [w, 0xB0000000], pc := p }

theorem witness_DecodedWordIsCanonicalOnUsedBits : decode 0x4001FFFF#32 = .ok (.movlImmReg 0 0xFF) := by decide

theorem witness_DecodeAnswersByOpcode :
    ((0xAFFFFFFF#32).extractLsb' 27 5).toNat ≤ 21 ∧ 21 < ((0xB0000000#32).extractLsb' 27 5).toNat := by decide

theorem witness_ImmediateWidensByParameter :
    State.reset.config.immExt = .sext ∧
    ({ State.reset with config := { Config.default with immExt := .zext } } : State).config.immExt = .zext := by decide

theorem witness_StepRunsTheDecodedInstruction :
    (at2 0x47FFFFFF 0).status = .running ∧ (at2 0x47FFFFFF 0).pc.toNat % 4 = 0 ∧
    (at2 0x47FFFFFF 0).imem[(at2 0x47FFFFFF 0).pc.toNat / 4]? = some 0x47FFFFFF#32 ∧
    decode 0x47FFFFFF#32 = .ok (.movlImmReg 31 0xFF) := by decide

/-- The four cases of the fetch, at their bounds. -/
theorem witness_FetchChecksInOrder :
    ([4, 8, 9, 12, 7] : List Word).all (fun p => (at2 0 p).status == .running) = true ∧
    (at2 0 8).pc.toNat = 4 * (at2 0 8).imem.length ∧ 4 * (at2 0 9).imem.length < (at2 0 9).pc.toNat ∧
    4 * (at2 0 12).imem.length < (at2 0 12).pc.toNat ∧
    (at2 0 7).pc.toNat < 4 * (at2 0 7).imem.length ∧ (at2 0 7).pc.toNat % 4 ≠ 0 ∧
    (at2 0 4).pc.toNat < 4 * (at2 0 4).imem.length ∧ (at2 0 4).pc.toNat % 4 = 0 := by decide

theorem witness_IllegalOpcodeFaultsAtExecution :
    (at2 0 4).status = .running ∧ (at2 0 4).pc.toNat % 4 = 0 ∧
    (at2 0 4).imem[(at2 0 4).pc.toNat / 4]? = some 0xB0000000#32 ∧ 21 < ((0xB0000000#32).extractLsb' 27 5).toNat := by
  decide

theorem witness_RegisterFieldsAreCheckedRaFirst :
    (Instr.cmpl 16 16).usedFields.find? (fun p => decide (15 < p.2.toNat)) = some (.ra, 16) ∧
    (Instr.cmpl 15 16).usedFields.find? (fun p => decide (15 < p.2.toNat)) = some (.rb, 16) ∧
    (Instr.popl 15).usedFields.find? (fun p => decide (15 < p.2.toNat)) = none ∧ State.reset.status = .running ∧
    exec (.popl 15) State.reset = .next (State.reset.faultedWith (.memoryOutOfRange 1024 .word)) ∧
    (State.reset.faultedWith (.memoryOutOfRange 1024 .word)).status =
      .faulted { cause := .memoryOutOfRange 1024 .word, pc := 0, word := none } :=
  ⟨by decide, by decide, by decide, by decide, rfl, rfl⟩

/-- Every branch of the order: past the end, misaligned, an illegal opcode, an illegal field, and a legal instruction. -/
theorem witness_FaultPriorityIsTheOrderOfChecks :
    ([at2 0 9, at2 0 7, at2 0 4, at2 0x94000000 0, at2 0x88000000 0] : List State).all
      (fun s => s.status == .running && s.pc.toNat != 4 * s.imem.length) = true ∧
    decode 0x94000000#32 = .ok (.pushl 16) ∧ decode 0x88000000#32 = .ok .ret ∧ (at2 0x88000000 0).sp = 1024 := by decide

theorem witness_FinalStatusTakesNoStep : step (load1 0x40000005) = .next (after (load1 0x40000005)) := rfl

theorem witness_RunningCoreAlwaysHasANextState : State.reset.status = .running := by decide

theorem witness_FaultsArePrecise :
    step (load1 0xB0000000) = .next (after (load1 0xB0000000)) ∧
    (after (load1 0xB0000000)).status =
      .faulted { cause := .illegalOpcode 22, pc := 0, word := some 0xB0000000 } := ⟨rfl, by decide⟩

/-- Both normal ends. -/
theorem witness_NormalEndIsEndOfStreamOrRetAtSentinel :
    step (at2 0 8) = .next (after (at2 0 8)) ∧ (after (at2 0 8)).status = .halted ∧
    step (at2 0x88000000 0) = .next (after (at2 0x88000000 0)) ∧ (after (at2 0x88000000 0)).status = .halted :=
  ⟨rfl, by decide, rfl, by decide⟩

theorem witness_ResetValues :
    State.boot Config.default [0x05, 0x00, 0x00, 0x40] = .ok (load1 0x40000005) ∧
    State.boot Config.default [] = .ok State.reset := ⟨rfl, rfl⟩

theorem witness_LoadAssemblesInstructionWords :
    ([1, 2, 3, 4, 5, 6] : List Byte).length % 4 ≠ 0 ∧ ([] : List Byte).length % 4 = 0 ∧
    ([1, 2, 3, 4, 5, 6, 7, 8] : List Byte).length % 4 = 0 ∧ ([1, 2, 3, 4, 5, 6, 7, 8] : List Byte).length / 4 ≤ 2 ^ 28 ∧
    1 < ([1, 2, 3, 4, 5, 6, 7, 8] : List Byte).length / 4 ∧ Config.default.fileByteOrder = .little ∧
    ({ Config.default with fileByteOrder := .big } : Config).fileByteOrder = .big := by decide

/-- The words of opcode op with every other bit 0 and every other bit 1. -/
def rowWords (op : Nat) : List Word := [BitVec.ofNat 32 (op * 2 ^ 27), BitVec.ofNat 32 (op * 2 ^ 27 + 0x07FFFFFF)]

/-- Both words of an opcode match its row's mask and match. -/
def rowMatches (op : Nat) (fixed : Word) : Bool := (rowWords op).all fun w => w &&& 0xF8000000#32 == fixed

theorem witness_SublSubtractsImmediate :
    rowMatches 0 0x00000000 = true ∧ (15#5).toNat < 16 ∧ 15 < (16#5).toNat := by decide
theorem witness_AddlRegRegAddsRaToRb :
    rowMatches 1 0x08000000 = true ∧ (15#5).toNat < 16 ∧ (0#5).toNat < 16 ∧ 15 < (16#5).toNat := by decide
theorem witness_AddlImmRegAddsImmediate :
    rowMatches 2 0x10000000 = true ∧ (15#5).toNat < 16 ∧ 15 < (16#5).toNat := by decide
theorem witness_ImullKeepsLowHalfOfProduct :
    rowMatches 3 0x18000000 = true ∧ (15#5).toNat < 16 ∧ (0#5).toNat < 16 ∧ 15 < (16#5).toNat := by decide
theorem witness_ShrlHalvesUnsigned :
    rowMatches 4 0x20000000 = true ∧ (15#5).toNat < 16 ∧ 15 < (31#5).toNat := by decide
theorem witness_MovlRegRegCopiesRaToRb :
    rowMatches 5 0x28000000 = true ∧ (15#5).toNat < 16 ∧ (6#5).toNat < 16 ∧ 15 < (16#5).toNat := by decide

/-- The exact sum of base register r1 and an immediate, r1 holding v. -/
def derefSum (v : Word) (imm : Imm16) : Int :=
  ((State.reset.setGpr 1 v).gpr 1).toInt + ((State.reset.setGpr 1 v).simm imm).toInt

theorem witness_MovlDerefRegLoadsByte :
    rowMatches 6 0x30000000 = true ∧ (1#5).toNat < 16 ∧ (15#5).toNat < 16 ∧ 15 < (16#5).toNat ∧
    derefSum 1 0xFFFF = 0 ∧ derefSum 1020 3 = 1023 ∧ derefSum 0 0xFFFF = -1 ∧ derefSum 1023 1 = 1024 := by decide
theorem witness_MovlRegDerefStoresByte :
    rowMatches 7 0x38000000 = true ∧ (15#5).toNat < 16 ∧ (1#5).toNat < 16 ∧ 15 < (16#5).toNat ∧
    (State.reset.setGpr 1 1).effAddr 1 0xFFFF = 0 ∧ (State.reset.setGpr 1 1020).effAddr 1 3 = 1023 ∧
    (State.reset.setGpr 1 0).effAddr 1 0xFFFF = -1 ∧ (State.reset.setGpr 1 1023).effAddr 1 1 = 1024 := by decide
theorem witness_MovlImmRegLoadsEightBits :
    rowMatches 8 0x40000000 = true ∧ (15#5).toNat < 16 ∧ 15 < (16#5).toNat := by decide

/-- The flags clauses at the pair of 42_compare_branch R164 and at k = 1 and 31. -/
theorem witness_CmplWritesFlags :
    let s := (State.reset.setGpr 0 0x80000000).setGpr 1 0
    rowMatches 9 0x48000000 = true ∧ (0#5).toNat < 16 ∧ (1#5).toNat < 16 ∧ 15 < (16#5).toNat ∧
    0x80000000#32 = s.gpr 0 ∧ 0#32 = s.gpr 1 ∧ 0x80000000#32 = 0#32 - 0x80000000#32 ∧
    ([1, 5, 8, 10, 12, 31] : List Nat).all (fun k => k != 0 && k != 6 && k != 7 && k != 11) = true := by decide
theorem witness_JeBranchesOnZF : rowMatches 10 0x50000000 = true := by decide
theorem witness_JlBranchesOnSFNotOF : rowMatches 11 0x58000000 = true := by decide
theorem witness_JleBranchesOnSFNotOFOrZF : rowMatches 12 0x60000000 = true := by decide
theorem witness_JgeBranchesOnSFIsOF : rowMatches 13 0x68000000 = true := by decide
theorem witness_JbeBranchesOnCFOrZF : rowMatches 14 0x70000000 = true := by decide
theorem witness_JmpAlwaysJumps : rowMatches 15 0x78000000 = true := by decide
theorem witness_BranchesAfterCmplFollowTheOrderings :
    (0#5).toNat < 16 ∧ (15#5).toNat < 16 ∧ 0x80000000#32 = (State.reset.setGpr 0 0x80000000).gpr 0 ∧
    0#32 = (State.reset.setGpr 0 0x80000000).gpr 15 := by decide

theorem witness_CallPushesReturnAddressAndJumps :
    rowMatches 16 0x80000000 = true ∧ 4 ≤ (spAt 4).sp.toInt ∧ (spAt 4).sp.toInt ≤ 1024 ∧ 4 ≤ (spAt 1024).sp.toInt ∧
    (spAt 1024).sp.toInt ≤ 1024 ∧ (spAt 3).sp.toInt < 4 ∧ 1024 < (spAt 1025).sp.toInt ∧ (-4 : Int) = (spAt 0).pushAddr := by
  decide
theorem witness_RetHaltsAtSentinelElsePopsPc :
    rowMatches 17 0x88000000 = true ∧ (spAt 1024).sp = 0x00000400#32 ∧ 0 ≤ (spAt 0).sp.toInt ∧
    (spAt 0).sp.toInt ≤ 1020 ∧ 0 ≤ (spAt 1020).sp.toInt ∧ (spAt 1020).sp.toInt ≤ 1020 ∧
    (spAt 1021).sp ≠ 0x00000400#32 ∧ 1020 < (spAt 1021).sp.toInt ∧
    (spAt 0xFFFFFFFF).sp ≠ 0x00000400#32 ∧ (spAt 0xFFFFFFFF).sp.toInt < 0 := by decide
theorem witness_PushlStoresBelowSp :
    rowMatches 18 0x90000000 = true ∧ (6#5).toNat < 16 ∧ (15#5).toNat < 16 ∧ 15 < (16#5).toNat ∧ 15#5 ≠ 6 ∧
    4 ≤ (spAt 4).sp.toInt ∧ (spAt 4).sp.toInt ≤ 1024 ∧ 4 ≤ (spAt 1024).sp.toInt ∧ (spAt 1024).sp.toInt ≤ 1024 ∧
    (spAt 3).sp.toInt < 4 ∧ 1024 < (spAt 1025).sp.toInt ∧ (0 : Int) = (spAt 4).pushAddr := by decide
theorem witness_PoplLoadsFromSp :
    rowMatches 19 0x98000000 = true ∧ (6#5).toNat < 16 ∧ (15#5).toNat < 16 ∧ 15 < (16#5).toNat ∧ 15#5 ≠ 6 ∧
    0 ≤ (spAt 0).sp.toInt ∧ (spAt 0).sp.toInt ≤ 1020 ∧ 0 ≤ (spAt 1020).sp.toInt ∧ (spAt 1020).sp.toInt ≤ 1020 ∧
    (spAt 0xFFFFFFFF).sp.toInt < 0 ∧ 1020 < (spAt 1021).sp.toInt := by decide

theorem witness_PushesThenReversePopsRestoreRegisters :
    (spAt 8).status = .running ∧ (∀ r ∈ ([0, 15] : List Field5), r.toNat < 16 ∧ r ≠ 6) ∧
    4 * ((([0, 15] : List Field5).length : Nat) : Int) ≤ (spAt 8).sp.toInt ∧ (spAt 8).sp.toInt ≤ 1024 ∧
    ((3 : Nat) : Int) < (spAt 12).sp.toInt - 4 * ((([0, 15] : List Field5).length : Nat) : Int) ∧
    (spAt 12).sp.toInt ≤ ((12 : Nat) : Int) := by decide
theorem witness_PushSpThenPopSpRestoresSp :
    (spAt 4).status = .running ∧ 4 ≤ (spAt 4).sp.toInt ∧ (spAt 1024).sp.toInt ≤ 1024 := by decide
theorem witness_CallThenRetReturns :
    (spAt 4).status = .running ∧ 4 ≤ (spAt 4).sp.toInt ∧ (spAt 1024).sp.toInt ≤ 1024 := by decide
theorem witness_StackHolds256Entries :
    State.reset.status = .running ∧ State.reset.sp = 1024 ∧ (15#5).toNat < 16 := by decide

theorem witness_PrintrEmitsRegister :
    rowMatches 20 0xA0000000 = true ∧ (15#5).toNat < 16 ∧ 15 < (16#5).toNat := by decide
theorem witness_ReadrTakesTheNextAnswer :
    rowMatches 21 0xA8000000 = true ∧ (15#5).toNat < 16 ∧ 15 < (16#5).toNat ∧
    (State.reset.withAnswer (.value 0x80000000)).input = .value 0x80000000#32 :: [] ∧
    (State.reset.withAnswer .fail).input = .fail :: [] := by decide
theorem witness_ReadrWaitsUntilTheHostAnswers : (15#5).toNat < 16 ∧ State.reset.input = [] := by decide

theorem witness_ByteAccessStoresLowByteLoadsZeroExtended :
    (0 : Int) ≤ 0 ∧ (0 : Int) + 1 ≤ 1024 ∧ (0 : Int) ≤ 1023 ∧ (1023 : Int) + 1 ≤ 1024 := by decide
theorem witness_WordAccessFollowsByteOrder :
    (0 : Int) ≤ 0 ∧ (0 : Int) + 4 ≤ 1024 ∧ (0 : Int) ≤ 1020 ∧ (1020 : Int) + 4 ≤ 1024 ∧
    State.reset.config.byteOrder = .little ∧
    ({ State.reset with config := { Config.default with byteOrder := .big } } : State).config.byteOrder = .big := by
  decide
theorem witness_AccessFaultsExactlyOutOfBounds :
    inBounds 0 .word ∧ inBounds 1020 .word ∧ ¬ inBounds 1021 .word ∧ ¬ inBounds (-1) .byte ∧ inBounds 1023 .byte := by
  decide
theorem witness_ExactAndWrappedAddressAgree :
    inBounds ((State.reset.setGpr 1 1020).effAddr 1 3) .byte ∧ inBounds ((State.reset.setGpr 1 1).effAddr 1 0xFFFF) .byte := by
  decide
theorem witness_CanonicalMemoriesWithEqualBytesAreEqual :
    let m : Memory := [(0, 0xFF), (1023, 1)]
    m.wf ∧ m.wf ∧ (∀ a : Nat, m.read a = m.read a) := ⟨by decide, by decide, fun _ => rfl⟩
theorem witness_OtherInstructionsIgnoreMemory :
    (Instr.movlImmReg 0 5).opcode.toNat ∉ [6, 7, 16, 17, 18, 19] ∧
    exec (.movlImmReg 0 5) State.reset = .next ((State.reset.setGpr 0 5).setPc 4) := ⟨by decide, rfl⟩

theorem witness_OnlyCmplWritesFlags :
    (Instr.subl 0 1).opcode ≠ 9 ∧
    exec (.subl 0 1) State.reset = .next ((State.reset.setGpr 0 0xFFFFFFFF).setPc 4) ∧ (15#5).toNat < 16 ∧
    (0#5).toNat < 16 := ⟨by decide, rfl, by decide, by decide⟩
theorem witness_OnlyConditionalBranchesReadFlags :
    (Instr.subl 0 1).opcode.toNat ∉ [9, 10, 11, 12, 13, 14] ∧
    exec (.subl 0 1) State.reset = .next ((State.reset.setGpr 0 0xFFFFFFFF).setPc 4) ∧
    (Instr.je 8).opcode.toNat ∈ [10, 11, 12, 13, 14] ∧
    exec (.je 8) (State.reset.setFlags 0x40) = .next ((State.reset.setFlags 0x40).setPc 12) ∧
    0xFFFFF77E#32 &&& 0x8C1#32 = (State.reset.setFlags 0x40).flags &&& 0x8C1#32 :=
  ⟨by decide, rfl, by decide, rfl, by decide⟩
theorem witness_EveryStepKeepsTheInvariant :
    (load1 0x90000000).Inv ∧ step (load1 0x90000000) = .next (after (load1 0x90000000)) := ⟨by decide, rfl⟩
theorem witness_InvariantHoldsAtReset :
    State.boot Config.default [0x05, 0x00, 0x00, 0x40] = .ok (load1 0x40000005) := rfl
theorem witness_NoStepWritesInstructionMemory :
    State.boot Config.default [0x05, 0x00, 0x00, 0x40] = .ok (load1 0x40000005) ∧
    step (load1 0x40000005) = .next (after (load1 0x40000005)) := ⟨rfl, rfl⟩

/-- A step that appends, a step that ends the run after output, and an observation. -/
theorem witness_OutputHistoryOnlyGrows :
    step (load1 0xA0000000) = .next (after (load1 0xA0000000)) ∧ (after (load1 0xA0000000)).output = [0#32] ∧
    step (after (load1 0xA0000000)) = .next (after (after (load1 0xA0000000))) ∧
    (after (after (load1 0xA0000000))).status ≠ .running ∧
    (after (after (load1 0xA0000000))).observe.isSome = true := ⟨rfl, by decide, rfl, by decide, by decide⟩
theorem witness_AnswersAreTakenInOrderByReadrOnly :
    let s := ((load1 0xA8000000).withAnswer (.value 7)).withAnswer .fail
    step s = .next (after s) ∧ (after s).input = [.fail] := ⟨rfl, by decide⟩

end Sys2Proof.Tests
end

/-! # The state (10_state): FLAGS, the instruction memory, reset and the invariant -/

namespace Sys2Proof.Machine

/-! ## FLAGS is a slot of its own: `setFlags` commutes with every other update -/

theorem State.setFlags_setFlags (s : State) (f g : Word) : (s.setFlags f).setFlags g = s.setFlags g := by
  simp [State.setFlags, State.setSlot]

theorem State.setFlags_self (s : State) : s.setFlags s.flags = s := by
  have hx : (s.setFlags s.flags).x = s.x := by
    refine State.x_ext fun i => ?_
    rw [State.setFlags_slot]
    split
    · next hi => subst hi; rfl
    · rfl
  calc s.setFlags s.flags = { s with x := (s.setFlags s.flags).x } := rfl
    _ = s := by rw [hx]

@[simp] theorem State.setFlags_setGpr (s : State) (f : Word) (r : GReg) (v : Word) :
    (s.setFlags f).setGpr r v = (s.setGpr r v).setFlags f := by
  have hne : flagsSlot.val ≠ (slotOf r).val := fun h => slotOf_ne_flags r (Fin.ext h.symm)
  simp only [State.setFlags, State.setGpr, State.setSlot]
  congr 1
  exact Vector.set_comm _ _ hne

@[simp] theorem State.setFlags_setSp (s : State) (f v : Word) :
    (s.setFlags f).setSp v = (s.setSp v).setFlags f := s.setFlags_setGpr f spReg v

@[simp] theorem State.setFlags_setPc (s : State) (f t : Word) :
    (s.setFlags f).setPc t = (s.setPc t).setFlags f := rfl

@[simp] theorem State.setFlags_advance (s : State) (f : Word) :
    (s.setFlags f).advance = s.advance.setFlags f := rfl

@[simp] theorem State.setFlags_emit (s : State) (f v : Word) :
    (s.setFlags f).emit v = (s.emit v).setFlags f := rfl

@[simp] theorem State.setFlags_dropAnswer (s : State) (f : Word) :
    (s.setFlags f).dropAnswer = s.dropAnswer.setFlags f := rfl

@[simp] theorem State.setFlags_halt (s : State) (f : Word) : (s.setFlags f).halt = s.halt.setFlags f := rfl

@[simp] theorem State.setFlags_branch (s : State) (f : Word) (b : Bool) (imm : Imm16) :
    (s.setFlags f).branch b imm = (s.branch b imm).setFlags f := rfl

/-! ## What is read without FLAGS -/

@[simp] theorem State.setFlags_nextPc (s : State) (f : Word) : (s.setFlags f).nextPc = s.nextPc := rfl

@[simp] theorem State.setFlags_simm (s : State) (f : Word) (imm : Imm16) :
    (s.setFlags f).simm imm = s.simm imm := rfl

@[simp] theorem State.setFlags_target (s : State) (f : Word) (imm : Imm16) :
    (s.setFlags f).target imm = s.target imm := rfl

@[simp] theorem State.setFlags_effAddr (s : State) (f : Word) (base : GReg) (imm : Imm16) :
    (s.setFlags f).effAddr base imm = s.effAddr base imm := by simp [State.effAddr]

@[simp] theorem State.setFlags_pushAddr (s : State) (f : Word) : (s.setFlags f).pushAddr = s.pushAddr := by
  simp [State.pushAddr]

@[simp] theorem State.setFlags_popAddr (s : State) (f : Word) : (s.setFlags f).popAddr = s.popAddr := by
  simp [State.popAddr]

@[simp] theorem State.setFlags_spDown (s : State) (f : Word) : (s.setFlags f).spDown = s.spDown.setFlags f := by
  simp [State.spDown]

@[simp] theorem State.setFlags_memRead (s : State) (f : Word) (a : Int) (n : Width) :
    (s.setFlags f).memRead a n = s.memRead a n := rfl

@[simp] theorem State.setFlags_popRead (s : State) (f : Word) : (s.setFlags f).popRead = s.popRead := by
  simp [State.popRead]

/-- A store lands or faults whatever FLAGS holds, and keeps FLAGS. -/
@[simp] theorem State.setFlags_memWrite (s : State) (f : Word) (a : Int) (n : Width) (v : Word) :
    (s.setFlags f).memWrite a n v = (·.setFlags f) <$> s.memWrite a n v := by
  by_cases hb : inBounds a n
  · cases n with
    | byte => rw [memWrite_byte _ hb, memWrite_byte _ hb]; rfl
    | word => rw [memWrite_word _ hb, memWrite_word _ hb]; rfl
  · rw [memWrite_out _ hb, memWrite_out _ hb]; rfl

@[simp] theorem State.setFlags_push (s : State) (f v : Word) :
    (s.setFlags f).push v = (·.setFlags f) <$> s.push v := by
  simp [State.push]

/-! ## Execution with another FLAGS word (10_state R25, R26) -/

/-- A result with its next state changed by g. -/
def mapNext (g : State → State) : Result → Result
  | .next t => .next (g t)
  | .fault r => .fault r
  | .refused r => .refused r

@[simp] theorem mapNext_next (g : State → State) (t : State) : mapNext g (.next t) = .next (g t) := rfl

/-- Committing does not read FLAGS: a fault is taken with the same information and FLAGS as it stands. -/
theorem commit_setFlags {s : State} {f : Word} {r q : Except FaultCause State} (h : q = (·.setFlags f) <$> r) :
    commit (s.setFlags f) q = mapNext (·.setFlags f) (commit s r) := by
  subst h
  cases r with
  | ok t => rfl
  | error c => rfl

/-- Every instruction but cmpl and the conditional branches runs the same whatever FLAGS holds (10_state R26). -/
theorem exec_setFlags {i : Instr} (hi : i.opcode.toNat ∉ [9, 10, 11, 12, 13, 14]) (s : State) (f : Word) :
    exec i (s.setFlags f) = mapNext (·.setFlags f) (exec i s) := by
  cases i with
  | cmpl | je | jl | jle | jge | jbe => simp [Instr.opcode] at hi
  | jmp => rfl
  | ret =>
    by_cases hs : s.sp = sentinel
    · simp [exec, execRet, hs]
    · simp only [exec, execRet, State.setFlags_sp, hs, if_false]
      exact commit_setFlags (by simp)
  | readr ra =>
    refine commit_setFlags ?_
    rw [map_bind]
    refine bind_congr fun a => ?_
    rw [State.setFlags_input]
    cases s.input with
    | nil => rfl
    | cons r rs =>
      cases r with
      | fail => rfl
      | value v => simp
  | subl | addlRegReg | addlImmReg | imull | shrl | movlRegReg | movlDerefReg | movlRegDeref | movlImmReg | call
  | pushl | popl | printr => exact commit_setFlags (by simp)

/-- Words that agree under a mask agree in every bit of the mask. -/
theorem getLsbD_eq_of_and_eq {n : Nat} {f g m : BitVec n} (h : f &&& m = g &&& m) {k : Nat} (hk : m.getLsbD k = true) :
    f.getLsbD k = g.getLsbD k := by
  simpa [hk] using congrArg (·.getLsbD k) h

/-- The four flags that a branch condition looks at are those of any FLAGS word that agrees in bits 0, 6, 7 and 11. -/
theorem State.setFlags_conditions {s : State} {f : Word} (h : f &&& 0x8C1#32 = s.flags &&& 0x8C1#32) :
    (s.setFlags f).cf = s.cf ∧ (s.setFlags f).zf = s.zf ∧ (s.setFlags f).sf = s.sf ∧ (s.setFlags f).of_ = s.of_ := by
  simp only [State.cf, State.zf, State.sf, State.of_, State.setFlags_flags]
  exact ⟨getLsbD_eq_of_and_eq h (by decide), getLsbD_eq_of_and_eq h (by decide), getLsbD_eq_of_and_eq h (by decide),
    getLsbD_eq_of_and_eq h (by decide)⟩

/-- A conditional branch runs the same under every FLAGS word that agrees in bits 0, 6, 7 and 11 (10_state R26). -/
theorem exec_branch_setFlags {i : Instr} (hi : i.opcode.toNat ∈ [10, 11, 12, 13, 14]) {s : State} {f : Word}
    (h : f &&& 0x8C1#32 = s.flags &&& 0x8C1#32) : exec i (s.setFlags f) = mapNext (·.setFlags f) (exec i s) := by
  obtain ⟨hcf, hzf, hsf, hof⟩ := State.setFlags_conditions h
  cases i with
  | je => simp [exec, execJe, State.condE, hzf]
  | jl => simp [exec, execJl, State.condL, hsf, hof]
  | jle => simp [exec, execJle, State.condLE, hzf, hsf, hof]
  | jge => simp [exec, execJge, State.condGE, hsf, hof]
  | jbe => simp [exec, execJbe, State.condBE, hcf, hzf]
  | subl | addlRegReg | addlImmReg | imull | shrl | movlRegReg | movlDerefReg | movlRegDeref | movlImmReg | cmpl | jmp
  | call | ret | pushl | popl | printr | readr => simp [Instr.opcode] at hi

/-- Settles O55, by the two commutations of `exec` with `setFlags`. -/
theorem onlyConditionalBranchesReadFlags : Obligations.OnlyConditionalBranchesReadFlags := by
  refine ⟨fun i s t f hi h => ?_, fun i s t f hi h hf => ?_⟩
  · rw [exec_setFlags hi, h, mapNext_next]
  · rw [exec_branch_setFlags hi hf, h, mapNext_next]

/-- An instruction that is not cmpl keeps FLAGS: run with FLAGS overwritten by its own value, it answers its own next
state with that value in FLAGS (10_state R25). -/
theorem exec_flags_of_ne_cmpl {i : Instr} {s t : State} (hi : i.opcode ≠ 9) (h : exec i s = .next t) :
    t.flags = s.flags := by
  have hs : exec i (s.setFlags s.flags) = mapNext (·.setFlags s.flags) (exec i s) := by
    by_cases hb : i.opcode.toNat ∈ [10, 11, 12, 13, 14]
    · exact exec_branch_setFlags hb rfl
    · refine exec_setFlags (fun hm => ?_) s s.flags
      rcases List.mem_cons.mp hm with h9 | hm
      · exact hi (BitVec.eq_of_toNat_eq h9)
      · exact hb hm
  rw [State.setFlags_self, h, mapNext_next] at hs
  injection hs with ht
  rw [ht, State.setFlags_flags]

/-- cmpl with legal fields: FLAGS is written whole and the pc advances (42_compare_branch R160). -/
theorem exec_cmpl_legal {ra rb : Field5} (ha : ra.toNat < 16) (hb : rb.toNat < 16) (s : State) :
    exec (.cmpl ra rb) s =
      .next (s.setFlags (cmplFlags (s.gpr ⟨ra.toNat, ha⟩) (s.gpr ⟨rb.toNat, hb⟩))).advance := by
  show commit s _ = _
  rw [useReg_legal _ ha, useReg_legal _ hb]
  rfl

/-- Settles O54: the frame follows from noninterference, and cmpl overwrites what FLAGS held. -/
theorem onlyCmplWritesFlags : Obligations.OnlyCmplWritesFlags := by
  refine ⟨fun i s t hi h => exec_flags_of_ne_cmpl hi h, fun ra rb s f ha hb => ?_⟩
  rw [exec_cmpl_legal ha hb, exec_cmpl_legal ha hb]
  simp only [State.setFlags_gpr, State.setFlags_setFlags]

/-! ## What the state of a completed instruction satisfies -/

/-- Where r completes, its state satisfies P. -/
def OkSat (P : State → Prop) (r : Except FaultCause State) : Prop := ∀ t, r = .ok t → P t

theorem OkSat.pure {P : State → Prop} {t : State} (h : P t) : OkSat P (Pure.pure t) := by
  intro u hu
  cases hu
  exact h

theorem OkSat.throw {P : State → Prop} (c : FaultCause) : OkSat P (MonadExcept.throw c) := by
  intro u hu
  cases hu

theorem OkSat.bind {α : Type} {P : State → Prop} {r : Except FaultCause α} {g : α → Except FaultCause State}
    (h : ∀ a, r = .ok a → OkSat P (g a)) : OkSat P (r >>= g) := by
  cases r with
  | ok a => exact h a rfl
  | error c => exact fun u hu => nomatch hu

/-- What holds where the instruction completes, and of the state with any status, holds of what a commit answers. -/
theorem OkSat.commit {P : State → Prop} {s t : State} {r : Except FaultCause State}
    (ht : commit s r = .next t) (hs : ∀ st, P { s with status := st }) (h : OkSat P r) : P t := by
  rcases commit_next ht with hr | ⟨c, -, rfl⟩
  · exact h t hr
  · exact hs _

/-! ## FLAGS holds no bit but CF, ZF, SF and OF (10_state R28) -/

/-- A word with no bit set but 0, 6, 7 and 11. -/
abbrev LegalFlags (f : Word) : Prop := f &&& ~~~flagsMask = 0

theorem packFlags_legal (cf zf sf of_ : Bool) : LegalFlags (packFlags cf zf sf of_) := by
  revert cf zf sf of_; decide

/-- cmpl keeps FLAGS legal: it writes a packed word or faults. -/
theorem exec_cmpl_legalFlags {ra rb : Field5} {s t : State} (h : exec (.cmpl ra rb) s = .next t)
    (hs : LegalFlags s.flags) : LegalFlags t.flags := by
  refine OkSat.commit (P := fun u => LegalFlags u.flags) h (fun _ => hs) ?_
  refine .bind fun a _ => .bind fun b _ => .pure ?_
  rw [State.advance_flags, State.setFlags_flags]
  exact packFlags_legal _ _ _ _

/-- Every instruction keeps FLAGS legal: only cmpl writes it. -/
theorem exec_legalFlags {i : Instr} {s t : State} (h : exec i s = .next t) (hs : LegalFlags s.flags) :
    LegalFlags t.flags := by
  by_cases hi : i.opcode = 9
  · cases i with
    | cmpl ra rb => exact exec_cmpl_legalFlags h hs
    | _ => simp [Instr.opcode] at hi
  · rw [exec_flags_of_ne_cmpl hi h]
    exact hs

/-! ## What every step keeps: IMEM, the parameters and the canonical form of DMEM -/

/-- IMEM and the parameters are as before, and DMEM is canonical if it was. -/
structure Keeps (s t : State) : Prop where
  imem : t.imem = s.imem
  config : t.config = s.config
  wf : s.dmem.wf → t.dmem.wf

theorem Keeps.refl (s : State) : Keeps s s := ⟨rfl, rfl, id⟩

theorem Keeps.trans {s t u : State} (h : Keeps s t) (h' : Keeps t u) : Keeps s u :=
  ⟨h'.imem.trans h.imem, h'.config.trans h.config, h'.wf ∘ h.wf⟩

theorem memWrite_keeps {s t : State} {a : Int} {n : Width} {v : Word} (h : s.memWrite a n v = .ok t) : Keeps s t := by
  obtain ⟨-, ht, -, hw⟩ := memWrite_ok h
  exact ⟨by rw [ht], by rw [ht], hw⟩

theorem push_keeps {s t : State} {v : Word} (h : s.push v = .ok t) : Keeps s t :=
  have hd : Keeps s s.spDown := ⟨rfl, rfl, id⟩
  hd.trans (memWrite_keeps h)

/-- No instruction writes IMEM or the parameters, and each keeps the canonical form: the stores by `memWrite_ok`, the
others since they do not write DMEM. -/
theorem exec_keeps {i : Instr} {s t : State} (h : exec i s = .next t) : Keeps s t := by
  have hst : ∀ st, Keeps s { s with status := st } := fun _ => ⟨rfl, rfl, id⟩
  cases i with
  | subl | addlImmReg | shrl | movlImmReg | printr =>
    exact OkSat.commit h hst (.bind fun _ _ => .pure ⟨rfl, rfl, id⟩)
  | addlRegReg | imull | movlRegReg | cmpl | popl =>
    exact OkSat.commit h hst (.bind fun _ _ => .bind fun _ _ => .pure ⟨rfl, rfl, id⟩)
  | movlDerefReg =>
    exact OkSat.commit h hst (.bind fun _ _ => .bind fun _ _ => .bind fun _ _ => .pure ⟨rfl, rfl, id⟩)
  | je | jl | jle | jge | jbe | jmp => cases h; exact ⟨rfl, rfl, id⟩
  | movlRegDeref =>
    exact OkSat.commit h hst (.bind fun _ _ => .bind fun _ _ => .bind fun t ht =>
      .pure ((memWrite_keeps ht).trans ⟨rfl, rfl, id⟩))
  | call => exact OkSat.commit h hst (.bind fun t ht => .pure ((push_keeps ht).trans ⟨rfl, rfl, id⟩))
  | pushl =>
    exact OkSat.commit h hst (.bind fun _ _ => .bind fun t ht => .pure ((push_keeps ht).trans ⟨rfl, rfl, id⟩))
  | ret =>
    by_cases hs : s.sp = sentinel
    · rw [exec, execRet, if_pos hs] at h
      cases h
      exact hst _
    · rw [exec, execRet, if_neg hs] at h
      exact OkSat.commit h hst (.bind fun _ _ => .pure ⟨rfl, rfl, id⟩)
  | readr =>
    refine OkSat.commit h hst (.bind fun _ _ => ?_)
    split
    · exact .pure (.refl s)
    · exact .throw _
    · exact .pure ⟨rfl, rfl, id⟩

/-- The next state of a step is what one instruction answers, or differs from s in the status alone
(30_encoding R100). -/
theorem step_next_cases {s t : State} (h : step s = .next t) :
    (∃ i, exec i s = .next t) ∨ ∃ st, t = { s with status := st } := by
  rcases step_running (step_next_running h) with
    ⟨-, hs⟩ | ⟨-, hs⟩ | ⟨-, -, hs⟩ | ⟨w, -, ⟨e, -, hs⟩ | ⟨i, -, hs⟩⟩ <;> rw [h] at hs
  case inr.inr.inr.inr => exact .inl ⟨i, hs.symm⟩
  all_goals cases hs; exact .inr ⟨_, rfl⟩

theorem step_keeps {s t : State} (h : step s = .next t) : Keeps s t := by
  rcases step_next_cases h with ⟨i, hi⟩ | ⟨st, rfl⟩
  · exact exec_keeps hi
  · exact ⟨rfl, rfl, id⟩

theorem step_legalFlags {s t : State} (h : step s = .next t) (hs : LegalFlags s.flags) : LegalFlags t.flags := by
  rcases step_next_cases h with ⟨i, hi⟩ | ⟨st, rfl⟩
  · exact exec_legalFlags hi hs
  · exact hs

/-- Settles O56, part by part of the invariant. -/
theorem everyStepKeepsTheInvariant : Obligations.EveryStepKeepsTheInvariant := by
  rintro s t ⟨hwf, hflags, hlen⟩ h
  have hk := step_keeps h
  exact ⟨hk.wf hwf, step_legalFlags h hflags, hk.imem ▸ hlen⟩

/-! ## Runs -/

/-- A reflexive and transitive relation that every step keeps relates a state to every state of its run. -/
theorem State.run_rel {R : State → State → Prop} (hrefl : ∀ s, R s s) (htrans : ∀ s t u, R s t → R t u → R s u)
    (hstep : ∀ s t, step s = .next t → R s t) (k : Nat) (s : State) : R s (s.run k) := by
  induction k generalizing s with
  | zero => exact hrefl s
  | succ k ih =>
    rw [State.run]
    split
    · next t ht => exact htrans _ _ _ (hstep s t ht) (ih t)
    · exact hrefl s
    · exact hrefl s

theorem run_keeps (k : Nat) (s : State) : Keeps s (s.run k) :=
  State.run_rel Keeps.refl (fun _ _ _ => Keeps.trans) (fun _ _ => step_keeps) k s

/-! ## Load and reset (70_reset R270, R271; 10_state R38) -/

/-- A program that loads starts in the reset state with its words in IMEM and the given parameters. -/
theorem State.boot_ok {c : Config} {bytes : List Byte} {s : State} (h : State.boot c bytes = .ok s) :
    ∃ ws, loadProgram c.fileByteOrder bytes = .ok ws ∧ s = { State.reset with imem := ws, config := c } := by
  unfold State.boot at h
  cases hl : loadProgram c.fileByteOrder bytes with
  | error e => rw [hl] at h; cases h
  | ok ws => rw [hl] at h; cases h; exact ⟨ws, rfl, rfl⟩

theorem wordsOf_length (o : ByteOrder) (bytes : List Byte) : (wordsOf o bytes).length = bytes.length / 4 := by
  induction bytes using wordsOf.induct with
  | case1 b0 b1 b2 b3 rest ih => simp only [wordsOf, List.length_cons, ih]; omega
  | case2 bytes hshort =>
    match bytes, hshort with
    | [], _ | [_], _ | [_, _], _ | [_, _, _], _ => simp [wordsOf]
    | b0 :: b1 :: b2 :: b3 :: rest, hshort => exact (hshort b0 b1 b2 b3 rest rfl).elim

theorem loadProgram_length_le {o : ByteOrder} {bytes : List Byte} {ws : List Word}
    (h : loadProgram o bytes = .ok ws) : ws.length ≤ maxWords := by
  unfold loadProgram at h
  split at h
  · cases h
  · split at h
    · cases h
    · next hle =>
      cases h
      rw [wordsOf_length]
      exact Nat.not_lt.mp hle

/-- Settles O58: IMEM after load by `boot_ok`, and what one step keeps a run keeps. -/
theorem noStepWritesInstructionMemory : Obligations.NoStepWritesInstructionMemory := by
  refine ⟨fun c bytes s h => ?_, fun s t k => ⟨fun h => ?_, (run_keeps k s).imem, (run_keeps k s).config⟩⟩
  · obtain ⟨ws, hl, rfl⟩ := State.boot_ok h
    exact hl
  · exact ⟨(step_keeps h).imem, (step_keeps h).config⟩

/-- Settles O16: the start state is the reset state but for IMEM and the parameters. -/
theorem resetValues : Obligations.ResetValues := by
  intro c bytes s h
  obtain ⟨ws, hl, rfl⟩ := State.boot_ok h
  have hslot : ∀ i : Slot, State.slot { State.reset with imem := ws, config := c } i = if i = spSlot then 1024 else 0 :=
    State.reset_slot
  refine ⟨hslot 6, fun i hi => ?_, fun _ => rfl, rfl, hl, rfl, rfl⟩
  rw [hslot, if_neg (show i ≠ spSlot from hi)]

theorem reset_inv : State.reset.Inv := ⟨State.reset_wf, by decide, Nat.zero_le _⟩

/-- Settles O57: reset meets the invariant, and a program that loads has at most 2^28 words. -/
theorem invariantHoldsAtReset : Obligations.InvariantHoldsAtReset := by
  obtain ⟨hwf, hflags, -⟩ := reset_inv
  refine ⟨reset_inv, fun c bytes s h => ?_⟩
  obtain ⟨ws, hl, rfl⟩ := State.boot_ok h
  exact ⟨hwf, hflags, loadProgram_length_le hl⟩

end Sys2Proof.Machine

/-! # The data memory (20_memory): byte and word accesses, bounds, addresses, the canonical form -/

namespace Sys2Proof.Machine

/-! ## Bounds (20_memory R53) -/

/-- The bounds check with DMEM's size written out. -/
theorem inBounds_iff (a : Int) (n : Width) : inBounds a n ↔ 0 ≤ a ∧ a + n.bytes ≤ 1024 := Iff.rfl

theorem inBounds_byte_iff (a : Int) : inBounds a .byte ↔ 0 ≤ a ∧ a + 1 ≤ 1024 := Iff.rfl

theorem inBounds_word_iff (a : Int) : inBounds a .word ↔ 0 ≤ a ∧ a + 4 ≤ 1024 := Iff.rfl

theorem memRead_ok_of_inBounds (s : State) {a : Int} {n : Width} (h : inBounds a n) : ∃ r, s.memRead a n = .ok r := by
  cases n with
  | byte => exact ⟨_, memRead_byte s h⟩
  | word => exact ⟨_, memRead_word s h⟩

theorem memWrite_ok_of_inBounds (s : State) {a : Int} {n : Width} (h : inBounds a n) (v : Word) :
    ∃ t, s.memWrite a n v = .ok t := by
  cases n with
  | byte => exact ⟨_, memWrite_byte s h v⟩
  | word => exact ⟨_, memWrite_word s h v⟩

/-- Settles O50: in bounds an access succeeds, out of bounds it is the fault, and it cannot be both. -/
theorem accessFaultsExactlyOutOfBounds : Obligations.AccessFaultsExactlyOutOfBounds := by
  intro s a n v
  rw [← inBounds_iff]
  by_cases h : inBounds a n
  · obtain ⟨r, hr⟩ := memRead_ok_of_inBounds s h
    obtain ⟨t, ht⟩ := memWrite_ok_of_inBounds s h v
    simpa [hr, ht] using h
  · simp [memRead_out s h, memWrite_out s h, h]

/-! ## Byte accesses (20_memory R55) -/

/-- Settles O48, by the laws of a byte write and the frame of every store. -/
theorem byteAccessStoresLowByteLoadsZeroExtended : Obligations.ByteAccessStoresLowByteLoadsZeroExtended := by
  intro s a v h0 h1
  have hb : inBounds a .byte := (inBounds_byte_iff a).mpr ⟨h0, h1⟩
  have hw := memWrite_byte s hb v
  obtain ⟨-, -, hframe, -⟩ := memWrite_ok hw
  exact ⟨⟨_, hw, Memory.read_write_self _ _ _, hframe⟩, _, memRead_byte s hb, BitVec.toNat_setWidth_of_le (by decide)⟩

/-! ## Word accesses in both byte orders (20_memory R56) -/

/-- The position in a word of the byte at offset k, 0 to 3. -/
def bytePos (o : ByteOrder) (k : Nat) : Nat :=
  match o with
  | .little => k
  | .big => 3 - k

@[simp] theorem bytePos_little (k : Nat) : bytePos .little k = k := rfl
@[simp] theorem bytePos_big (k : Nat) : bytePos .big k = 3 - k := rfl

/-- A word write puts byte `bytePos o k` of the word at offset k. -/
theorem Memory.read_writeWord (m : Memory) (o : ByteOrder) (a : Nat) (v : Word) {k : Nat} (hk : k < 4) :
    (m.writeWord o a v).read (a + k) = byteOf v (bytePos o k) := by
  cases o with
  | little | big => interval_cases k <;> simp [Memory.writeWord, Memory.read_write]

/-- The four bytes of a word joined give the word. -/
theorem wordOf_byteOf (v : Word) : wordOf (byteOf v 3) (byteOf v 2) (byteOf v 1) (byteOf v 0) = v := by
  simp only [wordOf, byteOf, Nat.reduceMul]
  rw [BitVec.extractLsb'_append_extractLsb'_eq_extractLsb' (show 24 = 16 + 8 from rfl),
    BitVec.extractLsb'_append_extractLsb'_eq_extractLsb' (show 16 = 8 + 8 from rfl),
    BitVec.extractLsb'_append_extractLsb'_eq_extractLsb' (show 8 = 0 + 8 from rfl)]
  exact BitVec.extractLsb'_eq_self

/-- A word reads as it was last written. -/
@[simp] theorem Memory.readWord_writeWord (m : Memory) (o : ByteOrder) (a : Nat) (v : Word) :
    (m.writeWord o a v).readWord o a = v := by
  have h0 := m.read_writeWord o a v (k := 0) (by decide)
  have h1 := m.read_writeWord o a v (k := 1) (by decide)
  have h2 := m.read_writeWord o a v (k := 2) (by decide)
  have h3 := m.read_writeWord o a v (k := 3) (by decide)
  rw [Nat.add_zero] at h0
  cases o with
  | little | big => rw [Memory.readWord, h0, h1, h2, h3]; exact wordOf_byteOf v

/-- Settles O49: where each byte stands by `read_writeWord`, the load back by `readWord_writeWord`. -/
theorem wordAccessFollowsByteOrder : Obligations.WordAccessFollowsByteOrder := by
  intro s a v h0 h4
  have hb : inBounds a .word := (inBounds_word_iff a).mpr ⟨h0, h4⟩
  have hw := memWrite_word s hb v
  have hr := memRead_word s hb
  obtain ⟨-, -, hframe, -⟩ := memWrite_ok hw
  have hbyte : ∀ k, k < 4 → (s.dmem.writeWord s.config.byteOrder a.toNat v).read (a.toNat + k) =
      byteOf v (bytePos s.config.byteOrder k) := fun k hk => Memory.read_writeWord _ _ _ _ hk
  have hback : State.memRead { s with dmem := s.dmem.writeWord s.config.byteOrder a.toNat v } a .word = .ok v := by
    rw [memRead_word _ hb, Memory.readWord_writeWord]
  refine ⟨_, hw, hframe, hback, fun ho => ?_, fun ho => ?_⟩
  all_goals
    rw [ho] at hbyte hr ⊢
    exact ⟨hbyte 0 (by decide), hbyte 1 (by decide), hbyte 2 (by decide), hbyte 3 (by decide), hr⟩

/-! ## Effective addresses (20_memory R54) -/

/-- A widened immediate read as signed, under both values of `imm_ext`. -/
theorem widen_toInt_bounds (e : ImmExt) (imm : Imm16) : -32768 ≤ (widen e imm).toInt ∧ (widen e imm).toInt ≤ 65535 := by
  cases e with
  | sext =>
    have hs : (widen .sext imm).toInt = imm.toInt := BitVec.toInt_signExtend_of_le (by decide)
    have hlo := imm.le_toInt
    have hhi := imm.toInt_lt
    omega
  | zext =>
    have hz : (widen .zext imm).toNat = imm.toNat := BitVec.toNat_setWidth_of_le (by decide)
    have hlt := imm.isLt
    have hi : (widen .zext imm).toInt = (widen .zext imm).toNat := BitVec.toInt_eq_toNat_of_lt (by omega)
    omega

/-- The wrapped sum read as signed is the exact one, or that 2^32 above or below. -/
theorem add_toInt_cases (a b : Word) :
    (a + b).toInt = a.toInt + b.toInt ∨ (a + b).toInt = a.toInt + b.toInt + 4294967296 ∨
      (a + b).toInt = a.toInt + b.toInt - 4294967296 := by
  have ha := a.toInt_lt
  have ha' := a.le_toInt
  have hb := b.toInt_lt
  have hb' := b.le_toInt
  rw [BitVec.toInt_add]
  simp only [Int.bmod]
  split <;> omega

/-- Settles O51: where the sum wraps, the exact and the wrapped one both lie far outside DMEM. -/
theorem exactAndWrappedAddressAgree : Obligations.ExactAndWrappedAddressAgree := by
  intro s base imm
  have hexact : s.effAddr base imm = (s.gpr base).toInt + (s.simm imm).toInt := rfl
  obtain ⟨himm, himm'⟩ : -32768 ≤ (s.simm imm).toInt ∧ (s.simm imm).toInt ≤ 65535 := widen_toInt_bounds _ imm
  have hreg := (s.gpr base).toInt_lt
  have hreg' := (s.gpr base).le_toInt
  have hsum := (s.gpr base + s.simm imm).toInt_lt
  have hsum' := (s.gpr base + s.simm imm).le_toInt
  simp only [inBounds_byte_iff]
  rcases add_toInt_cases (s.gpr base) (s.simm imm) with hw | hw | hw
  · rw [hw]
    exact ⟨hexact, Iff.rfl, fun _ => hexact⟩
  · exact ⟨hexact, by omega, by omega⟩
  · exact ⟨hexact, by omega, by omega⟩

/-! ## The canonical form (20_memory R51; log 17) -/

/-- In a memory whose addresses strictly rise, the byte of a listed cell is what its address reads as. -/
theorem Memory.read_of_mem {m : Memory} (h : m.Pairwise fun c d => c.1 < d.1) {k : Nat} {b : Byte} (hc : (k, b) ∈ m) :
    m.read k = b := by
  induction m with
  | nil => cases hc
  | cons d m ih =>
    obtain ⟨hlt, hp⟩ := List.pairwise_cons.mp h
    rcases List.mem_cons.mp hc with rfl | hm
    · simp [Memory.read]
    · have hne : d.1 ≠ k := (hlt _ hm).ne
      simp [Memory.read, hne, ih hp hm]

/-- An address that does not read as unlisted has a cell with the byte it reads as. -/
theorem Memory.mem_of_read {m : Memory} {k : Nat} (h : m.read k ≠ Memory.unlisted) : (k, m.read k) ∈ m := by
  induction m with
  | nil => exact absurd rfl h
  | cons d m ih =>
    obtain ⟨a, b⟩ := d
    by_cases ha : a = k
    · simp [Memory.read, ha]
    · simp only [Memory.read, if_neg ha] at h ⊢
      exact List.mem_cons_of_mem _ (ih h)

/-- The cells of a canonical memory are the addresses that do not read as unlisted, with the byte they read as. -/
theorem Memory.mem_iff {m : Memory} (h : m.wf) (k : Nat) (b : Byte) :
    (k, b) ∈ m ↔ m.read k = b ∧ b ≠ Memory.unlisted := by
  obtain ⟨hp, hcell⟩ := h
  constructor
  · intro hc
    exact ⟨Memory.read_of_mem hp hc, (hcell _ hc).2⟩
  · rintro ⟨rfl, hb⟩
    exact Memory.mem_of_read hb

theorem Memory.wf_nodup {m : Memory} (h : m.wf) : m.Nodup :=
  h.1.imp fun hlt hcd => hlt.ne (congrArg Prod.fst hcd)

/-- Settles O52: equal bytes give the same cells, and strictly rising lists of the same cells are equal. -/
theorem canonicalMemoriesWithEqualBytesAreEqual : Obligations.CanonicalMemoriesWithEqualBytesAreEqual := by
  intro m m' h h' hread
  have hcells : ∀ c, c ∈ m ↔ c ∈ m' := by
    rintro ⟨k, b⟩
    rw [Memory.mem_iff h, Memory.mem_iff h', hread]
  have hperm : m.Perm m' := (List.perm_ext_iff_of_nodup (Memory.wf_nodup h) (Memory.wf_nodup h')).mpr hcells
  exact hperm.eq_of_pairwise (fun c d _ _ hcd hdc => absurd hdc hcd.asymm) h.1 h'.1

/-! ## Execution with another DMEM (20_memory R52) -/

/-- The state with another DMEM. -/
def State.withDmem (s : State) (m : Memory) : State := { s with dmem := m }

section
variable (s : State) (m : Memory)

/-! ### What is read without DMEM -/

@[simp] theorem State.withDmem_gpr (r : GReg) : (s.withDmem m).gpr r = s.gpr r := rfl
@[simp] theorem State.withDmem_simm (imm : Imm16) : (s.withDmem m).simm imm = s.simm imm := rfl
@[simp] theorem State.withDmem_input : (s.withDmem m).input = s.input := rfl

/-! ### Every other update commutes with it -/

@[simp] theorem State.withDmem_setGpr (r : GReg) (v : Word) :
    (s.withDmem m).setGpr r v = (s.setGpr r v).withDmem m := rfl
@[simp] theorem State.withDmem_setFlags (v : Word) : (s.withDmem m).setFlags v = (s.setFlags v).withDmem m := rfl
@[simp] theorem State.withDmem_advance : (s.withDmem m).advance = s.advance.withDmem m := rfl
@[simp] theorem State.withDmem_emit (v : Word) : (s.withDmem m).emit v = (s.emit v).withDmem m := rfl
@[simp] theorem State.withDmem_dropAnswer : (s.withDmem m).dropAnswer = s.dropAnswer.withDmem m := rfl

end

/-- Committing does not read DMEM: a fault is taken with the same information and DMEM as it stands. -/
theorem commit_withDmem {s : State} {m : Memory} {r q : Except FaultCause State} (h : q = (·.withDmem m) <$> r) :
    commit (s.withDmem m) q = mapNext (·.withDmem m) (commit s r) := by
  subst h
  cases r with
  | ok t => rfl
  | error c => rfl

/-- Every instruction but the two byte moves and the four stack operations runs the same whatever DMEM holds, and
leaves it. -/
theorem exec_withDmem {i : Instr} (hi : i.opcode.toNat ∉ [6, 7, 16, 17, 18, 19]) (s : State) (m : Memory) :
    exec i (s.withDmem m) = mapNext (·.withDmem m) (exec i s) := by
  cases i with
  | movlDerefReg | movlRegDeref | call | ret | pushl | popl => simp [Instr.opcode] at hi
  | je | jl | jle | jge | jbe | jmp => rfl
  | readr ra =>
    refine commit_withDmem ?_
    rw [map_bind]
    refine bind_congr fun a => ?_
    rw [State.withDmem_input]
    cases s.input with
    | nil => rfl
    | cons r rs =>
      cases r with
      | fail | value => rfl
  | subl | addlRegReg | addlImmReg | imull | shrl | movlRegReg | movlImmReg | cmpl | printr =>
    exact commit_withDmem (by simp)

/-- Settles O53, by the commutation of `exec` with `withDmem`. -/
theorem otherInstructionsIgnoreMemory : Obligations.OtherInstructionsIgnoreMemory := by
  intro i s t m hi h
  have hm := exec_withDmem hi s m
  rw [h, mapNext_next] at hm
  exact hm

end Sys2Proof.Machine

/-! # Encoding (30_encoding): the fields of a word, the opcode map, the canonical word -/

namespace Sys2Proof

open Sys2Proof.Machine Sys2Proof.Laws

/-! ## The fields of a word (30_encoding R81, R83, R93) -/

theorem encodeRecord_ra (r : Record) : (encodeRecord r).extractLsb' 22 5 = r.ra := by
  refine BitVec.eq_of_getLsbD_eq fun k hk => ?_
  rw [BitVec.getLsbD_extractLsb', encodeRecord_getLsbD]
  simp [hk, show ¬ 22 + k < 16 by omega, show ¬ 22 + k < 17 by omega, show 22 + k < 27 by omega]

theorem encodeRecord_rb (r : Record) : (encodeRecord r).extractLsb' 17 5 = r.rb := by
  refine BitVec.eq_of_getLsbD_eq fun k hk => ?_
  rw [BitVec.getLsbD_extractLsb', encodeRecord_getLsbD]
  simp [hk, show ¬ 17 + k < 16 by omega, show 17 + k < 22 by omega]

theorem encodeRecord_imm16 (r : Record) : (encodeRecord r).extractLsb' 0 16 = r.imm16 := by
  refine BitVec.eq_of_getLsbD_eq fun k hk => ?_
  rw [BitVec.getLsbD_extractLsb', encodeRecord_getLsbD]
  simp [hk]

/-- No field of a record is lost in its canonical word. -/
@[simp] theorem decodeRecord_encodeRecord (r : Record) : decodeRecord (encodeRecord r) = r := by
  rw [decodeRecord, encodeRecord_op, encodeRecord_ra, encodeRecord_rb, encodeRecord_imm16]

theorem bit16Cleared_getLsbD : ∀ k < 32, (0xFFFEFFFF#32).getLsbD k = decide (k ≠ 16) := by decide

/-- The fields cover every bit of the word but bit 16 (30_encoding R83). -/
theorem encodeRecord_decodeRecord (w : Word) : encodeRecord (decodeRecord w) = w &&& 0xFFFEFFFF#32 := by
  refine BitVec.eq_of_getLsbD_eq fun k hk => ?_
  rw [encodeRecord_getLsbD, BitVec.getLsbD_and, bit16Cleared_getLsbD k hk]
  simp only [decodeRecord, BitVec.getLsbD_extractLsb']
  split_ifs with himm h16 hrb hra
  · simp [himm, show k ≠ 16 by omega]
  · simp [show k = 16 by omega]
  · simp [show k - 17 < 5 by omega, show 17 + (k - 17) = k by omega, show k ≠ 16 by omega]
  · simp [show k - 22 < 5 by omega, show 22 + (k - 22) = k by omega, show k ≠ 16 by omega]
  · simp [show k - 27 < 5 by omega, show 27 + (k - 27) = k by omega, show k ≠ 16 by omega]

/-- Every field of the word with bit 16 alone is 0, so bit 16 is in no field (30_encoding R83). -/
theorem decodeRecord_flip16 (w : Word) : decodeRecord (w ^^^ 0x00010000#32) = decodeRecord w := by
  simp [decodeRecord, BitVec.extractLsb'_xor]

/-- Settles O2: `decode` looks at the record alone. -/
theorem reencodingClearsBit16Alone : Obligations.ReencodingClearsBit16Alone := by
  intro w
  refine ⟨encodeRecord_decodeRecord w, decodeRecord_flip16 w, ?_⟩
  rw [decode, decodeRecord_flip16, decode]

/-- A record with each field restricted to the bits of another record's field. -/
def Record.mask (r m : Record) : Record :=
  { op := r.op &&& m.op, ra := r.ra &&& m.ra, rb := r.rb &&& m.rb, imm16 := r.imm16 &&& m.imm16 }

/-- Masking a word masks its fields. -/
theorem decodeRecord_and (w m : Word) : decodeRecord (w &&& m) = (decodeRecord w).mask (decodeRecord m) := by
  simp only [decodeRecord, Record.mask, BitVec.extractLsb'_and]

/-! ## The opcode map (30_encoding R87, R88) -/

theorem Instr.opcode_le (i : Instr) : i.opcode.toNat ≤ 21 := by
  cases i <;> simp [Instr.opcode]

@[simp] theorem Instr.record_op (i : Instr) : i.record.op = i.opcode := by
  cases i <;> rfl

/-- The opcode map undoes `Instr.record`. -/
@[simp] theorem Record.instr_record (i : Instr) : i.record.instr = .ok i := by
  cases i with
  | movlImmReg ra imm8 =>
    have himm : (imm8.setWidth 16).extractLsb' 0 8 = imm8 := by
      rw [BitVec.extractLsb'_setWidth_of_le (by decide), BitVec.extractLsb'_eq_self]
    exact congrArg (fun b => Except.ok (Instr.movlImmReg ra b)) himm
  | _ => rfl

/-- Settles O1: the canonical word keeps the record, and the record determines the instruction. -/
theorem decodeOfEncodeIsTheInstruction : Obligations.DecodeOfEncodeIsTheInstruction := by
  intro i
  calc decode (encode i) = i.record.instr := by rw [decode, encode, decodeRecord_encodeRecord]
    _ = .ok i := Record.instr_record i

/-- The opcode map rejects opcodes above 21 alone, by name. -/
theorem Record.instr_error {r : Record} {e : DecodeError} (h : r.instr = .error e) :
    21 < r.op.toNat ∧ e = .illegalOpcode r.op := by
  unfold Record.instr at h
  split at h
  case h_23 =>
    cases h
    refine ⟨?_, rfl⟩
    simp only [imp_false] at *
    omega
  all_goals cases h

theorem field5_eq_of_toNat {x : Field5} {k : Nat} (h : x.toNat = k) : x = BitVec.ofNat 5 k := by
  rw [← h, BitVec.ofNat_toNat, BitVec.setWidth_eq]

theorem field5_and_ones (x : Field5) : x &&& 31#5 = x := BitVec.and_allOnes
theorem imm16_and_ones (x : Imm16) : x &&& 65535#16 = x := BitVec.and_allOnes

/-- The immediate of movl_imm_reg is the low byte of the field (30_encoding R84). -/
theorem setWidth_lowByte (x : Imm16) : (x.extractLsb' 0 8).setWidth 16 = x &&& 255#16 := by
  refine BitVec.eq_of_getLsbD_eq fun k hk => ?_
  have hm : ∀ k < 16, (255#16).getLsbD k = decide (k < 8) := by decide
  rw [BitVec.getLsbD_setWidth, BitVec.getLsbD_extractLsb', BitVec.getLsbD_and, hm k hk]
  simp [hk, Bool.and_comm]

/-! Each form of row, by the fields it uses: `usedMask` as a record (30_encoding R85, R87). -/

theorem fields_maskOp : decodeRecord 0xF8000000 = ⟨31#5, 0#5, 0#5, 0#16⟩ := by decide
theorem fields_maskImm : decodeRecord 0xF800FFFF = ⟨31#5, 0#5, 0#5, 65535#16⟩ := by decide
theorem fields_maskRa : decodeRecord 0xFFC00000 = ⟨31#5, 31#5, 0#5, 0#16⟩ := by decide
theorem fields_maskRaByte : decodeRecord 0xFFC000FF = ⟨31#5, 31#5, 0#5, 255#16⟩ := by decide
theorem fields_maskRaImm : decodeRecord 0xFFC0FFFF = ⟨31#5, 31#5, 0#5, 65535#16⟩ := by decide
theorem fields_maskRaRb : decodeRecord 0xFFFE0000 = ⟨31#5, 31#5, 31#5, 0#16⟩ := by decide
theorem fields_maskRaRbImm : decodeRecord 0xFFFEFFFF = ⟨31#5, 31#5, 31#5, 65535#16⟩ := by decide

/-- The record of the instruction read from r is r with the bits its row does not use set to 0 (30_encoding R85). -/
theorem Record.record_of_instr {r : Record} {i : Instr} (h : r.instr = .ok i) :
    i.record = r.mask (decodeRecord i.usedMask) := by
  unfold Record.instr at h
  split at h
  case h_23 => cases h
  all_goals
    next hk =>
    have hop := field5_eq_of_toNat hk
    cases h
    simp only [Instr.record, Instr.opcode, Instr.usedMask, fields_maskOp, fields_maskImm, fields_maskRa,
      fields_maskRaByte, fields_maskRaImm, fields_maskRaRb, fields_maskRaRbImm, Record.mask, hop, field5_and_ones,
      imm16_and_ones, setWidth_lowByte, BitVec.and_zero]
    rfl

/-- Every row uses the opcode's bits and not bit 16 (30_encoding R85, R87). -/
theorem Instr.usedMask_op (i : Instr) : i.usedMask.extractLsb' 27 5 = 31#5 := by
  cases i <;> (simp only [Instr.usedMask]; decide)

theorem Instr.usedMask_bit16 (i : Instr) : i.usedMask &&& 0xFFFEFFFF#32 = i.usedMask := by
  cases i <;> (simp only [Instr.usedMask]; decide)

theorem decode_opcode {w : Word} {i : Instr} (h : decode w = .ok i) : i.opcode = w.extractLsb' 27 5 := by
  calc i.opcode = i.record.op := i.record_op.symm
    _ = w.extractLsb' 27 5 &&& i.usedMask.extractLsb' 27 5 := congrArg Record.op (Record.record_of_instr h)
    _ = w.extractLsb' 27 5 := by rw [i.usedMask_op, field5_and_ones]

/-- Settles O3: the record of i is that of w under the row's mask, and no row uses bit 16. -/
theorem decodedWordIsCanonicalOnUsedBits : Obligations.DecodedWordIsCanonicalOnUsedBits := by
  intro w i h
  calc encode i = encodeRecord (decodeRecord (w &&& i.usedMask)) := by
        rw [encode, Record.record_of_instr h, decodeRecord_and]
    _ = w &&& i.usedMask &&& 0xFFFEFFFF#32 := encodeRecord_decodeRecord _
    _ = w &&& i.usedMask := by rw [BitVec.and_assoc, i.usedMask_bit16]

/-- An opcode above 21 is rejected by name (30_encoding R88). -/
theorem decode_illegal {w : Word} (h : 21 < (w.extractLsb' 27 5).toNat) :
    decode w = .error (.illegalOpcode (w.extractLsb' 27 5)) := by
  cases hd : decode w with
  | ok i =>
    have hle := i.opcode_le
    rw [decode_opcode hd] at hle
    omega
  | error e =>
    obtain ⟨-, rfl⟩ := Record.instr_error hd
    rfl

/-- A word is rejected exactly where its opcode is above 21, so all others decode (30_encoding R87). -/
theorem decode_legal {w : Word} (h : (w.extractLsb' 27 5).toNat ≤ 21) : ∃ i, decode w = .ok i := by
  cases hd : decode w with
  | ok i => exact ⟨i, rfl⟩
  | error e =>
    obtain ⟨hlt, -⟩ := Record.instr_error hd
    exact absurd h (Nat.not_le.mpr hlt)

/-- Settles O4, a case for each side of the opcode check. -/
theorem decodeAnswersByOpcode : Obligations.DecodeAnswersByOpcode := by
  refine fun w => ⟨fun h => ?_, decode_illegal⟩
  obtain ⟨i, hi⟩ := decode_legal h
  exact ⟨i, hi, decode_opcode hi⟩

/-- Settles O5, by evaluation: the words are fixed. -/
theorem sampleWordsDecode : Obligations.SampleWordsDecode := by
  unfold Obligations.SampleWordsDecode
  decide

/-! ## The immediates (30_encoding R84) -/

theorem widen_sext_toInt (imm : Imm16) : (widen .sext imm).toInt = imm.toInt :=
  BitVec.toInt_signExtend_of_le (by decide)

theorem widen_zext_toNat (imm : Imm16) : (widen .zext imm).toNat = imm.toNat :=
  BitVec.toNat_setWidth_of_le (by decide)

theorem zextImm8_toNat (imm8 : Byte) : (zextImm8 imm8).toNat = imm8.toNat :=
  BitVec.toNat_setWidth_of_le (by decide)

/-- Settles O6, a case for each value of `imm_ext`. -/
theorem immediateWidensByParameter : Obligations.ImmediateWidensByParameter := by
  refine fun s imm imm8 => ⟨fun h => ?_, fun h => ?_, zextImm8_toNat imm8⟩
  · rw [State.simm, h, widen_sext_toInt]
  · rw [State.simm, h, widen_zext_toNat]

end Sys2Proof

/-! # The instruction cycle (30_encoding R94 to R100) -/

namespace Sys2Proof.Machine

/-! ## Fetch and step -/

theorem State.fetched_of_aligned {s : State} {w : Word} (h4 : s.pc.toNat % 4 = 0)
    (hw : s.imem[s.pc.toNat / 4]? = some w) : s.fetched = some w := by
  rw [State.fetched, if_pos h4, hw]

/-- `raise` in the words of the statements. -/
theorem raise_faultedWith (c : FaultCause) (s : State) : raise c s = .next (s.faultedWith c) := rfl

theorem step_of_decode_ok {s : State} {w : Word} {i : Instr} (hs : s.status = .running) (hw : s.fetched = some w)
    (hd : decode w = .ok i) : step s = exec i s := by
  simp only [step, hs, fetch_word hw, hd]

theorem step_of_decode_error {s : State} {w : Word} {e : DecodeError} (hs : s.status = .running)
    (hw : s.fetched = some w) (hd : decode w = .error e) : step s = raise (decodeFault e) s := by
  simp only [step, hs, fetch_word hw, hd]

/-- Settles O7, by `step_of_decode_ok`. -/
theorem stepRunsTheDecodedInstruction : Obligations.StepRunsTheDecodedInstruction :=
  fun _ _ _ hs h4 hw hd => step_of_decode_ok hs (State.fetched_of_aligned h4 hw) hd

/-- Settles O9: the word is rejected by name, and the fault records it. -/
theorem illegalOpcodeFaultsAtExecution : Obligations.IllegalOpcodeFaultsAtExecution := by
  intro s w hs h4 hw hop
  have hf : s.fetched = some w := State.fetched_of_aligned h4 hw
  rw [step_of_decode_error hs hf (decode_illegal hop), raise_faultedWith, State.faultedWith, hf]
  rfl

/-- Settles O8: each branch of the checks is one of the four things a fetch can find. -/
theorem fetchChecksInOrder : Obligations.FetchChecksInOrder := by
  intro s hs
  rcases fetch_cases s with ⟨hf, hc⟩ | ⟨hf, hc⟩ | ⟨hf, hc, h4⟩ | ⟨w, hf, hw, hc, h4⟩
  · rw [if_pos hc]
    simp only [step, hs, hf, State.halt]
  · rw [if_neg (by omega), if_pos hc]
    simp only [step, hs, hf, raise_faultedWith]
  · rw [if_neg (by omega), if_neg (by omega), if_pos h4]
    simp only [step, hs, hf, raise_faultedWith]
  · rw [if_neg (by omega), if_neg (by omega), if_neg (by omega)]
    rw [State.fetched, if_pos h4] at hw
    exact ⟨w, hw, hf⟩

/-- Settles O12, by `step_next_running`. -/
theorem finalStatusTakesNoStep : Obligations.FinalStatusTakesNoStep :=
  fun _ _ => step_next_running

/-! ## Stores keep the status -/

theorem memWrite_status {s t : State} {a : Int} {n : Width} {v : Word} (h : s.memWrite a n v = .ok t) :
    t.status = s.status := by
  obtain ⟨-, ht, -, -⟩ := memWrite_ok h
  rw [ht]

theorem push_status {s t : State} {v : Word} (h : s.push v = .ok t) : t.status = s.status :=
  memWrite_status (s := s.spDown) h

/-! ## The register checks (30_encoding R98) -/

/-- The first of the fields that names no general register. -/
def firstIllegal (fields : List (FieldName × Field5)) : Option (FieldName × Field5) :=
  fields.find? fun p => decide (15 < p.2.toNat)

/-- The answer r takes IllegalRegister for the first illegal one of the fields, and where there is none it never takes
that cause. -/
def ChecksFields (fields : List (FieldName × Field5)) (r : Except FaultCause State) : Prop :=
  match firstIllegal fields with
  | some (f, q) => r = .error (.illegalRegister f q)
  | none => ∀ f q, r ≠ .error (.illegalRegister f q)

theorem ChecksFields.ok (t : State) : ChecksFields [] (.ok t) := fun _ _ h => nomatch h

/-- A check of a field stands before the checks that follow it. -/
theorem ChecksFields.cons {f : FieldName} {q : Field5} {fields : List (FieldName × Field5)}
    {g : GReg → Except FaultCause State} (h : ∀ a, ChecksFields fields (g a)) :
    ChecksFields ((f, q) :: fields) (useReg f q >>= g) := by
  by_cases hq : q.toNat < 16
  · have hfirst : firstIllegal ((f, q) :: fields) = firstIllegal fields :=
      List.find?_cons_of_neg (by simpa using Nat.le_of_lt_succ hq)
    rw [useReg_legal f hq, ChecksFields, hfirst]
    exact h _
  · have hfirst : firstIllegal ((f, q) :: fields) = some (f, q) :=
      List.find?_cons_of_pos (decide_eq_true (p := 15 < q.toNat) (by omega))
    rw [useReg_illegal f (Nat.not_lt.mp hq), ChecksFields, hfirst]
    rfl

/-- With no field left to check, an operation that takes no IllegalRegister keeps the check. -/
theorem ChecksFields.bind {α : Type} {r : Except FaultCause α} {g : α → Except FaultCause State}
    (hr : ∀ c, r = .error c → ∃ a n, c = .memoryOutOfRange a n) (h : ∀ a, ChecksFields [] (g a)) :
    ChecksFields [] (r >>= g) := by
  cases r with
  | ok a => exact h a
  | error c =>
    obtain ⟨a, n, rfl⟩ := hr c rfl
    exact fun _ _ hc => nomatch hc

/-- An instruction that completes leaves the status as it is or halts. -/
def KeepsOrHalts (s t : State) : Prop := t.status = s.status ∨ t.status = .halted

/-- What every instruction does, in the words of 30_encoding R98 and R99: it checks the fields it uses in order, and
commits what it completes with. -/
theorem exec_checks_then_commits (i : Instr) (s : State) :
    ∃ r, exec i s = commit s r ∧ ChecksFields i.usedFields r ∧ OkSat (KeepsOrHalts s) r := by
  cases i with
  | subl | addlImmReg | shrl | movlImmReg | printr =>
    exact ⟨_, rfl, .cons fun _ => .ok _, .bind fun _ _ => .pure (.inl rfl)⟩
  | addlRegReg | imull | movlRegReg | cmpl =>
    exact ⟨_, rfl, .cons fun _ => .cons fun _ => .ok _, .bind fun _ _ => .bind fun _ _ => .pure (.inl rfl)⟩
  | je | jl | jle | jge | jbe | jmp =>
    exact ⟨.ok _, rfl, .ok _, .pure (.inl rfl)⟩
  | movlDerefReg =>
    exact ⟨_, rfl, .cons fun _ => .cons fun _ => .bind (fun _ h => ⟨_, _, (memRead_error h).2⟩) fun _ => .ok _,
      .bind fun _ _ => .bind fun _ _ => .bind fun _ _ => .pure (.inl rfl)⟩
  | movlRegDeref =>
    exact ⟨_, rfl, .cons fun _ => .cons fun _ => .bind (fun _ h => ⟨_, _, (memWrite_error h).2⟩) fun _ => .ok _,
      .bind fun _ _ => .bind fun _ _ => .bind fun t ht => .pure (.inl (show t.status = _ from memWrite_status ht))⟩
  | call =>
    exact ⟨_, rfl, .bind (fun _ h => ⟨_, _, (push_error h).2⟩) fun _ => .ok _,
      .bind fun t ht => .pure (.inl (show t.status = _ from push_status ht))⟩
  | pushl =>
    exact ⟨_, rfl, .cons fun _ => .bind (fun _ h => ⟨_, _, (push_error h).2⟩) fun _ => .ok _,
      .bind fun _ _ => .bind fun t ht => .pure (.inl (show t.status = _ from push_status ht))⟩
  | popl =>
    exact ⟨_, rfl, .cons fun _ => .bind (fun _ h => ⟨_, _, (popRead_error h).2⟩) fun _ => .ok _,
      .bind fun _ _ => .bind fun _ _ => .pure (.inl rfl)⟩
  | ret =>
    by_cases hs : s.sp = sentinel
    · exact ⟨.ok s.halt, if_pos hs, .ok _, .pure (.inr rfl)⟩
    · exact ⟨_, if_neg hs, .bind (fun _ h => ⟨_, _, (popRead_error h).2⟩) fun _ => .ok _,
        .bind fun _ _ => .pure (.inl rfl)⟩
  | readr =>
    refine ⟨_, rfl, .cons fun _ => ?_, .bind fun _ _ => ?_⟩
    · split
      · exact .ok _
      · exact fun _ _ h => nomatch h
      · exact .ok _
    · split
      · exact .pure (.inl rfl)
      · exact .throw _
      · exact .pure (.inl rfl)

/-- Settles O10: the checks give the fault by name, and an instruction that completes is not Faulted. -/
theorem registerFieldsAreCheckedRaFirst : Obligations.RegisterFieldsAreCheckedRaFirst := by
  intro i s
  obtain ⟨r, hexec, hcheck, hok⟩ := exec_checks_then_commits i s
  refine ⟨fun f q hfirst => ?_, fun hfirst hs t info f q ht hinfo hcause => ?_⟩
  · have hr : r = .error (.illegalRegister f q) := by
      rw [ChecksFields, firstIllegal, hfirst] at hcheck
      exact hcheck
    rw [hexec, hr, commit_error, raise_faultedWith]
  · have hr : ∀ f q, r ≠ .error (.illegalRegister f q) := by
      rw [ChecksFields, firstIllegal, hfirst] at hcheck
      exact hcheck
    rw [hexec] at ht
    rcases commit_next ht with hrt | ⟨c, hrc, rfl⟩
    · rcases hok t hrt with hst | hst <;> simp [hst, hs] at hinfo
    · cases hinfo
      exact hr f q (hcause ▸ hrc)

end Sys2Proof.Machine

/-! # Arithmetic (40_arithmetic): opcodes 0 to 4 -/

namespace Sys2Proof.Machine

/-! ## Rows of the opcode table, and what instructions with register operands share -/

/-- A word that has the opcode of m decodes by the row of m, with its own fields (30_encoding R85, R87). -/
theorem decode_of_opcode_bits {w m : Word} (h : w &&& 0xF8000000#32 = m) :
    decode w = Record.instr { decodeRecord w with op := (decodeRecord m).op } := by
  have hop : (decodeRecord m).op = (decodeRecord w).op := by
    calc (decodeRecord m).op = (decodeRecord w).op &&& 31#5 := by rw [← h, decodeRecord_and]; rfl
      _ = (decodeRecord w).op := field5_and_ones _
  rw [hop, decode]

/-- The check of the first field comes before everything else (30_encoding R98). -/
theorem exec_illegal_first {i : Instr} {f : FieldName} {q : Field5} {fields : List (FieldName × Field5)}
    (hi : i.usedFields = (f, q) :: fields) (hq : 15 < q.toNat) (s : State) :
    exec i s = .next (s.faultedWith (.illegalRegister f q)) := by
  obtain ⟨hfault, -⟩ := registerFieldsAreCheckedRaFirst i s
  refine hfault f q ?_
  rw [hi]
  exact List.find?_cons_of_pos (decide_eq_true hq)

/-- The check of the second field comes next (30_encoding R98). -/
theorem exec_illegal_second {i : Instr} {f f' : FieldName} {q q' : Field5} {fields : List (FieldName × Field5)}
    (hi : i.usedFields = (f, q) :: (f', q') :: fields) (hq : q.toNat < 16) (hq' : 15 < q'.toNat) (s : State) :
    exec i s = .next (s.faultedWith (.illegalRegister f' q')) := by
  obtain ⟨hfault, -⟩ := registerFieldsAreCheckedRaFirst i s
  refine hfault f' q' ?_
  rw [hi, List.find?_cons_of_neg (by simpa using Nat.le_of_lt_succ hq)]
  exact List.find?_cons_of_pos (decide_eq_true hq')

/-- An operation on one register operand completes where its field is legal. -/
theorem commit_useReg {f : FieldName} {q : Field5} (hq : q.toNat < 16) (s : State) (g : GReg → State) :
    commit s (do let a ← useReg f q; return g a) = .next (g ⟨q.toNat, hq⟩) := by
  rw [useReg_legal f hq]
  rfl

/-- An operation on two register operands completes where both fields are legal. -/
theorem commit_useReg_useReg {f f' : FieldName} {q q' : Field5} (hq : q.toNat < 16) (hq' : q'.toNat < 16) (s : State)
    (g : GReg → GReg → State) :
    commit s (do let a ← useReg f q; let b ← useReg f' q'; return g a b) =
      .next (g ⟨q.toNat, hq⟩ ⟨q'.toNat, hq'⟩) := by
  rw [useReg_legal f hq]
  exact commit_useReg hq' s (g _)

/-- A write of one general register and the advance of pc change nothing else (40_arithmetic R120). -/
theorem setGpr_advance_frame (s : State) (r : GReg) (v : Word) :
    (s.setGpr r v).advance.pc = s.pc + 4 ∧ s.sameSlotsBut [slotOf r] (s.setGpr r v).advance ∧
      s.sameMemory (s.setGpr r v).advance ∧ s.samePorts (s.setGpr r v).advance ∧ s.sameRun (s.setGpr r v).advance := by
  refine ⟨rfl, fun i hi => ?_, fun _ => rfl, ⟨rfl, rfl⟩, rfl, rfl, rfl⟩
  exact s.setSlot_slot_ne (fun h => hi (List.mem_singleton.mpr h.symm)) v

/-! ## The five instructions -/

theorem exec_subl_legal {ra : Field5} (ha : ra.toNat < 16) (imm : Imm16) (s : State) :
    exec (.subl ra imm) s = .next (s.setGpr ⟨ra.toNat, ha⟩ (s.gpr ⟨ra.toNat, ha⟩ - s.simm imm)).advance :=
  commit_useReg ha s fun a => (s.setGpr a (s.gpr a - s.simm imm)).advance

theorem exec_addlRegReg_legal {ra rb : Field5} (ha : ra.toNat < 16) (hb : rb.toNat < 16) (s : State) :
    exec (.addlRegReg ra rb) s =
      .next (s.setGpr ⟨rb.toNat, hb⟩ (s.gpr ⟨rb.toNat, hb⟩ + s.gpr ⟨ra.toNat, ha⟩)).advance :=
  commit_useReg_useReg ha hb s fun a b => (s.setGpr b (s.gpr b + s.gpr a)).advance

theorem exec_addlImmReg_legal {ra : Field5} (ha : ra.toNat < 16) (imm : Imm16) (s : State) :
    exec (.addlImmReg ra imm) s = .next (s.setGpr ⟨ra.toNat, ha⟩ (s.gpr ⟨ra.toNat, ha⟩ + s.simm imm)).advance :=
  commit_useReg ha s fun a => (s.setGpr a (s.gpr a + s.simm imm)).advance

/-- The low half of the exact signed product is the product of the words (40_arithmetic R124). -/
theorem ofInt_toInt_mul_toInt (a b : Word) : BitVec.ofInt 32 (a.toInt * b.toInt) = a * b := by
  rw [BitVec.ofInt_mul, BitVec.ofInt_toInt, BitVec.ofInt_toInt]

/-- The low half of the exact unsigned product is the same (40_arithmetic R124). -/
theorem ofNat_toNat_mul_toNat (a b : Word) : BitVec.ofNat 32 (a.toNat * b.toNat) = a * b := by
  rw [BitVec.ofNat_mul, BitVec.ofNat_toNat, BitVec.ofNat_toNat, BitVec.setWidth_eq, BitVec.setWidth_eq]

/-- imull multiplies the words modulo 2^32 (40_arithmetic R124). -/
theorem exec_imull_legal {ra rb : Field5} (ha : ra.toNat < 16) (hb : rb.toNat < 16) (s : State) :
    exec (.imull ra rb) s =
      .next (s.setGpr ⟨rb.toNat, hb⟩ (s.gpr ⟨rb.toNat, hb⟩ * s.gpr ⟨ra.toNat, ha⟩)).advance := by
  rw [← ofInt_toInt_mul_toInt]
  exact commit_useReg_useReg ha hb s fun a b =>
    (s.setGpr b (BitVec.ofInt 32 ((s.gpr b).toInt * (s.gpr a).toInt))).advance

theorem exec_shrl_legal {ra : Field5} (ha : ra.toNat < 16) (s : State) :
    exec (.shrl ra) s = .next (s.setGpr ⟨ra.toNat, ha⟩ (s.gpr ⟨ra.toNat, ha⟩ >>> 1)).advance :=
  commit_useReg ha s fun a => (s.setGpr a (s.gpr a >>> 1)).advance

/-! ## The obligations: the row, legal operands, each illegal field -/

/-- Settles O18, by the write of x[ra] - simm. -/
theorem sublSubtractsImmediate : Obligations.SublSubtractsImmediate := by
  refine ⟨fun w h => decode_of_opcode_bits h, fun s ra imm => ⟨fun ha => ?_, fun ha => exec_illegal_first rfl ha s⟩⟩
  exact ⟨_, exec_subl_legal ha imm s, State.setGpr_gpr_self .., setGpr_advance_frame ..⟩

/-- Settles O19, by the write of x[rb] + x[ra]. -/
theorem addlRegRegAddsRaToRb : Obligations.AddlRegRegAddsRaToRb := by
  refine ⟨fun w h => decode_of_opcode_bits h, fun s ra rb => ⟨fun ha hb => ?_, fun ha => exec_illegal_first rfl ha s,
    fun ha hb => exec_illegal_second rfl ha hb s⟩⟩
  exact ⟨_, exec_addlRegReg_legal ha hb s, State.setGpr_gpr_self .., setGpr_advance_frame ..⟩

/-- Settles O20, by the write of x[ra] + simm. -/
theorem addlImmRegAddsImmediate : Obligations.AddlImmRegAddsImmediate := by
  refine ⟨fun w h => decode_of_opcode_bits h, fun s ra imm => ⟨fun ha => ?_, fun ha => exec_illegal_first rfl ha s⟩⟩
  exact ⟨_, exec_addlImmReg_legal ha imm s, State.setGpr_gpr_self .., setGpr_advance_frame ..⟩

/-- Settles O21: the signed and the unsigned exact product agree with the product of the words modulo 2^32. -/
theorem imullKeepsLowHalfOfProduct : Obligations.ImullKeepsLowHalfOfProduct := by
  refine ⟨fun w h => decode_of_opcode_bits h, fun s ra rb => ⟨fun ha hb => ?_, fun ha => exec_illegal_first rfl ha s,
    fun ha hb => exec_illegal_second rfl ha hb s⟩⟩
  refine ⟨_, exec_imull_legal ha hb s, ?_, ?_, setGpr_advance_frame ..⟩
  · rw [State.advance_gpr, State.setGpr_gpr_self, ofInt_toInt_mul_toInt]
  · rw [State.advance_gpr, State.setGpr_gpr_self, ofNat_toNat_mul_toNat]

/-- Settles O22, by the write of x[ra] shifted by 1, whose value is the half. -/
theorem shrlHalvesUnsigned : Obligations.ShrlHalvesUnsigned := by
  refine ⟨fun w h => decode_of_opcode_bits h, fun s ra => ⟨fun ha => ?_, fun ha => exec_illegal_first rfl ha s⟩⟩
  refine ⟨_, exec_shrl_legal ha s, ?_, setGpr_advance_frame ..⟩
  rw [State.advance_gpr, State.setGpr_gpr_self, BitVec.toNat_ushiftRight, Nat.shiftRight_eq_div_pow, pow_one]

end Sys2Proof.Machine

/-! # Moves (41_move): opcodes 5 to 8 -/

namespace Sys2Proof.Machine

/-! ## Facts the instructions share -/

/-- The low byte of the immediate field is the low byte of the word (30_encoding R81, R84). -/
theorem imm16_lowByte (w : Word) : (decodeRecord w).imm16.extractLsb' 0 8 = w.extractLsb' 0 8 :=
  BitVec.extractLsb'_extractLsb'_of_le (by decide)

/-- What follows two legal register checks runs on the registers they name. -/
theorem useReg_bind_useReg_bind {f f' : FieldName} {q q' : Field5} (hq : q.toNat < 16) (hq' : q'.toNat < 16)
    (g : GReg → GReg → Except FaultCause State) :
    (do let a ← useReg f q; let b ← useReg f' q'; g a b) = g ⟨q.toNat, hq⟩ ⟨q'.toNat, hq'⟩ := by
  rw [useReg_legal f hq, useReg_legal f' hq']
  rfl

theorem not_inBounds_byte {a : Int} (h : a < 0 ∨ 1023 < a) : ¬ inBounds a .byte := by
  rw [inBounds_byte_iff]
  omega

/-- A store that lands and the advance of pc change nothing but the bytes stored to (41_move R143). -/
theorem memWrite_advance_frame {s t : State} {a : Int} {n : Width} {v : Word} (h : s.memWrite a n v = .ok t) :
    s.sameMemoryBut a n t.advance ∧ t.advance.pc = s.pc + 4 ∧ s.sameSlotsBut [] t.advance ∧ s.samePorts t.advance ∧
      s.sameRun t.advance := by
  obtain ⟨-, ht, hmem, -⟩ := memWrite_ok h
  refine ⟨hmem, ?_⟩
  rw [ht]
  exact ⟨rfl, fun _ _ => rfl, ⟨rfl, rfl⟩, rfl, rfl, rfl⟩

/-! ## The four instructions -/

theorem exec_movlRegReg_legal {ra rb : Field5} (ha : ra.toNat < 16) (hb : rb.toNat < 16) (s : State) :
    exec (.movlRegReg ra rb) s = .next (s.setGpr ⟨rb.toNat, hb⟩ (s.gpr ⟨ra.toNat, ha⟩)).advance :=
  commit_useReg_useReg ha hb s fun a b => (s.setGpr b (s.gpr a)).advance

theorem exec_movlImmReg_legal {ra : Field5} (ha : ra.toNat < 16) (imm8 : Byte) (s : State) :
    exec (.movlImmReg ra imm8) s = .next (s.setGpr ⟨ra.toNat, ha⟩ (zextImm8 imm8)).advance :=
  commit_useReg ha s fun a => (s.setGpr a (zextImm8 imm8)).advance

section
variable {ra rb : Field5} (ha : ra.toNat < 16) (hb : rb.toNat < 16) (imm : Imm16) (s : State)

/-- With legal fields movl_deref_reg is its load and the write of rb. -/
theorem exec_movlDerefReg_legal :
    exec (.movlDerefReg ra rb imm) s = commit s (do
      let v ← s.memRead (s.effAddr ⟨ra.toNat, ha⟩ imm) .byte
      return (s.setGpr ⟨rb.toNat, hb⟩ v).advance) :=
  congrArg (commit s) (useReg_bind_useReg_bind ha hb _)

theorem exec_movlDerefReg_inBounds (h : inBounds (s.effAddr ⟨ra.toNat, ha⟩ imm) .byte) :
    exec (.movlDerefReg ra rb imm) s = .next (s.setGpr ⟨rb.toNat, hb⟩
      ((s.dmem.read (s.effAddr ⟨ra.toNat, ha⟩ imm).toNat).setWidth 32)).advance := by
  rw [exec_movlDerefReg_legal ha hb, memRead_byte s h]
  rfl

include hb in
theorem exec_movlDerefReg_outOfBounds (h : ¬ inBounds (s.effAddr ⟨ra.toNat, ha⟩ imm) .byte) :
    exec (.movlDerefReg ra rb imm) s =
      .next (s.faultedWith (.memoryOutOfRange (s.effAddr ⟨ra.toNat, ha⟩ imm) .byte)) := by
  rw [exec_movlDerefReg_legal ha hb, memRead_out s h]
  rfl

/-- With legal fields movl_reg_deref is its store and the advance of pc. -/
theorem exec_movlRegDeref_legal :
    exec (.movlRegDeref ra rb imm) s = commit s (do
      let t ← s.memWrite (s.effAddr ⟨rb.toNat, hb⟩ imm) .byte (s.gpr ⟨ra.toNat, ha⟩)
      return t.advance) :=
  congrArg (commit s) (useReg_bind_useReg_bind ha hb _)

theorem exec_movlRegDeref_of_memWrite {t : State}
    (h : s.memWrite (s.effAddr ⟨rb.toNat, hb⟩ imm) .byte (s.gpr ⟨ra.toNat, ha⟩) = .ok t) :
    exec (.movlRegDeref ra rb imm) s = .next t.advance := by
  rw [exec_movlRegDeref_legal ha hb, h]
  rfl

include ha in
theorem exec_movlRegDeref_outOfBounds (h : ¬ inBounds (s.effAddr ⟨rb.toNat, hb⟩ imm) .byte) :
    exec (.movlRegDeref ra rb imm) s =
      .next (s.faultedWith (.memoryOutOfRange (s.effAddr ⟨rb.toNat, hb⟩ imm) .byte)) := by
  rw [exec_movlRegDeref_legal ha hb, memWrite_out s h]
  rfl

end

/-! ## The obligations: the row, legal operands in and out of bounds, each illegal field -/

/-- Settles O24: in bounds the write of rb with the byte loaded, outside the fault of the load. -/
theorem movlDerefRegLoadsByte : Obligations.MovlDerefRegLoadsByte := by
  refine ⟨fun w h => decode_of_opcode_bits h, fun s ra rb imm => ⟨fun ha hb a hsum => ?_,
    fun ha => exec_illegal_first rfl ha s, fun ha hb => exec_illegal_second rfl ha hb s⟩⟩
  obtain rfl : a = s.effAddr ⟨ra.toNat, ha⟩ imm := hsum
  refine ⟨fun h0 h1 => ?_, fun hout => exec_movlDerefReg_outOfBounds ha hb imm s (not_inBounds_byte hout)⟩
  have hin : inBounds (s.effAddr ⟨ra.toNat, ha⟩ imm) .byte := (inBounds_byte_iff _).mpr ⟨h0, by omega⟩
  refine ⟨_, exec_movlDerefReg_inBounds ha hb imm s hin, ?_, setGpr_advance_frame ..⟩
  rw [State.advance_gpr, State.setGpr_gpr_self, BitVec.toNat_setWidth_of_le (by decide)]

/-- Settles O25: in bounds the byte store and its frame, outside the fault of the store. -/
theorem movlRegDerefStoresByte : Obligations.MovlRegDerefStoresByte := by
  refine ⟨fun w h => decode_of_opcode_bits h, fun s ra rb imm => ⟨fun ha hb a haddr => ?_,
    fun ha => exec_illegal_first rfl ha s, fun ha hb => exec_illegal_second rfl ha hb s⟩⟩
  subst haddr
  refine ⟨rfl, fun h0 h1 => ?_, fun hout => exec_movlRegDeref_outOfBounds ha hb imm s (not_inBounds_byte hout)⟩
  have hin : inBounds (s.effAddr ⟨rb.toNat, hb⟩ imm) .byte := (inBounds_byte_iff _).mpr ⟨h0, by omega⟩
  have hstore := memWrite_byte s hin (s.gpr ⟨ra.toNat, ha⟩)
  exact ⟨_, exec_movlRegDeref_of_memWrite ha hb imm s hstore, Memory.read_write_self .., memWrite_advance_frame hstore⟩

/-- Settles O23, by the write of x[ra] to rb. -/
theorem movlRegRegCopiesRaToRb : Obligations.MovlRegRegCopiesRaToRb := by
  refine ⟨fun w h => decode_of_opcode_bits h, fun s ra rb => ⟨fun ha hb => ?_, fun ha => exec_illegal_first rfl ha s,
    fun ha hb => exec_illegal_second rfl ha hb s⟩⟩
  exact ⟨_, exec_movlRegReg_legal ha hb s, State.setGpr_gpr_self .., setGpr_advance_frame ..⟩

/-- Settles O26, by the write of the zero-extended byte; the row reads no bit above the byte. -/
theorem movlImmRegLoadsEightBits : Obligations.MovlImmRegLoadsEightBits := by
  refine ⟨fun w h => ?_, fun s ra imm8 => ⟨fun ha => ?_, fun ha => exec_illegal_first rfl ha s⟩⟩
  · rw [← imm16_lowByte]
    exact decode_of_opcode_bits h
  · refine ⟨_, exec_movlImmReg_legal ha imm8 s, ?_, setGpr_advance_frame ..⟩
    rw [State.advance_gpr, State.setGpr_gpr_self, zextImm8_toNat]

end Sys2Proof.Machine

/-! # Compare and branch (42_compare_branch): opcodes 9 to 15 -/

namespace Sys2Proof.Machine

/-! ## The FLAGS word of cmpl (42_compare_branch R161 to R165) -/

theorem cmplFlags_cf (a b : Word) : (cmplFlags a b).getLsbD 0 = cmplCF a b :=
  (packFlags_getLsbD ..).trans (by simp)

theorem cmplFlags_zf (a b : Word) : (cmplFlags a b).getLsbD 6 = cmplZF a b :=
  (packFlags_getLsbD ..).trans (by simp)

theorem cmplFlags_sf (a b : Word) : (cmplFlags a b).getLsbD 7 = cmplSF a b :=
  (packFlags_getLsbD ..).trans (by simp)

theorem cmplFlags_of (a b : Word) : (cmplFlags a b).getLsbD 11 = cmplOF a b :=
  (packFlags_getLsbD ..).trans (by simp)

theorem cmplFlags_other (a b : Word) {k : Nat} (h0 : k ≠ 0) (h6 : k ≠ 6) (h7 : k ≠ 7) (h11 : k ≠ 11) :
    (cmplFlags a b).getLsbD k = false :=
  (packFlags_getLsbD ..).trans (by simp [h0, h6, h7, h11])

/-- The difference is 0 exactly where the operands are equal (42_compare_branch R162). -/
theorem cmplZF_iff_eq (a b : Word) : cmplZF a b = true ↔ a = b := by
  rw [cmplZF_iff, cmplResult, sub_eq_zero, eq_comm]

/-! ## OF against the exact difference (42_compare_branch R164; log 20) -/

theorem toInt_bounds (v : Word) : -2147483648 ≤ v.toInt ∧ v.toInt < 2147483648 := ⟨v.le_toInt, v.toInt_lt⟩

/-- The pair of operands at which OF is not the signed overflow of `b − a`. -/
abbrev OFException (a b : Word) : Prop := a = 0x80000000#32 ∧ b = 0

/-- The pair is a = -2^31 and b = 0, read as signed. -/
theorem OFException_iff_toInt (a b : Word) : OFException a b ↔ a.toInt = -2147483648 ∧ b.toInt = 0 := by
  rw [OFException, ← BitVec.toInt_inj (y := 0x80000000#32), ← BitVec.toInt_inj (y := 0)]
  rfl

/-- The usual overflow test, by the sign bits, is the library's test on the exact difference. -/
theorem signTest_eq_ssubOverflow (a b : Word) :
    ((b.msb != a.msb) && ((b - a).msb != b.msb)) = b.ssubOverflow a := by
  rw [BitVec.ssubOverflow_eq]
  cases b.msb <;> cases a.msb <;> simp

theorem ssubOverflow_iff (a b : Word) :
    b.ssubOverflow a = true ↔ 2147483648 ≤ b.toInt - a.toInt ∨ b.toInt - a.toInt < -2147483648 := by
  simp [BitVec.ssubOverflow]

/-- OF is the signed overflow of `b − a` but for the one pair: the source's `0 < b` leaves out b = 0, whose difference
overflows for a = -2^31 alone (42_compare_branch R164). -/
theorem cmplOF_iff_ssubOverflow (a b : Word) : cmplOF a b = true ↔ b.ssubOverflow a = true ∧ ¬ OFException a b := by
  have ha := toInt_bounds a
  have hb := toInt_bounds b
  have hr := toInt_bounds (cmplResult a b)
  rw [cmplOF_iff, ssubOverflow_iff, OFException_iff_toInt]
  rcases cmplResult_toInt a b with h | h | h <;> omega

/-- SF and OF differ where b is below a as signed, and at the pair where OF misses the overflow
(42_compare_branch R173). -/
theorem cmplSF_ne_cmplOF_iff (a b : Word) : cmplSF a b ≠ cmplOF a b ↔ b.toInt < a.toInt ∨ OFException a b := by
  have ha := toInt_bounds a
  have hb := toInt_bounds b
  have hr := toInt_bounds (cmplResult a b)
  rw [Ne, Bool.eq_iff_iff, cmplSF_iff, cmplOF_iff_ssubOverflow, ssubOverflow_iff, OFException_iff_toInt]
  rcases cmplResult_toInt a b with h | h | h <;> omega

/-! ## The branch conditions (42_compare_branch R167 to R171) -/

/-- A branch taken exactly if p holds: pc alone changes (42_compare_branch R166). -/
theorem State.branch_of_iff {s : State} {taken : Bool} {p : Prop} [Decidable p] (hp : taken = true ↔ p) (imm : Imm16) :
    s.branch taken imm = { s with pc := if p then s.pc + 4 + s.simm imm else s.pc + 4 } :=
  congrArg s.setPc (if_congr hp rfl rfl)

/-- What `exec` answers for a conditional branch, with its condition restated as p. -/
theorem exec_branch_of_iff {i : Instr} {s : State} {taken : Bool} {imm : Imm16} {p : Prop} [Decidable p]
    (hi : exec i s = .next (s.branch taken imm)) (hp : taken = true ↔ p) :
    exec i s = .next { s with pc := if p then s.pc + 4 + s.simm imm else s.pc + 4 } :=
  hi.trans (congrArg Host.Outcome.next (State.branch_of_iff hp imm))

theorem State.condE_iff (s : State) : s.condE = true ↔ s.flags.getLsbD 6 = true := Iff.rfl

theorem State.condL_iff (s : State) : s.condL = true ↔ s.flags.getLsbD 7 ≠ s.flags.getLsbD 11 := bne_iff_ne

theorem State.condLE_iff (s : State) :
    s.condLE = true ↔ s.flags.getLsbD 7 ≠ s.flags.getLsbD 11 ∨ s.flags.getLsbD 6 = true :=
  Bool.or_eq_true_iff.trans (or_congr bne_iff_ne Iff.rfl)

theorem State.condGE_iff (s : State) : s.condGE = true ↔ s.flags.getLsbD 7 = s.flags.getLsbD 11 := beq_iff_eq

theorem State.condBE_iff (s : State) : s.condBE = true ↔ s.flags.getLsbD 0 = true ∨ s.flags.getLsbD 6 = true :=
  Bool.or_eq_true_iff

/-! ### After cmpl: the orderings of its operands (42_compare_branch R173) -/

section
variable {t : State} {a b : Word} (ht : t.flags = cmplFlags a b)
include ht

theorem State.condE_of_cmplFlags : t.condE = true ↔ b = a := by
  rw [t.condE_iff, ht, cmplFlags_zf, cmplZF_iff_eq, eq_comm]

theorem State.condL_of_cmplFlags : t.condL = true ↔ b.toInt < a.toInt ∨ OFException a b := by
  rw [t.condL_iff, ht, cmplFlags_sf, cmplFlags_of, cmplSF_ne_cmplOF_iff]

theorem State.condLE_of_cmplFlags : t.condLE = true ↔ b.toInt ≤ a.toInt ∨ OFException a b := by
  rw [t.condLE_iff, ht, cmplFlags_sf, cmplFlags_of, cmplFlags_zf, cmplSF_ne_cmplOF_iff, cmplZF_iff_eq, or_right_comm,
    le_iff_lt_or_eq, BitVec.toInt_inj, eq_comm]

theorem State.condGE_of_cmplFlags : t.condGE = true ↔ a.toInt ≤ b.toInt ∧ ¬ OFException a b := by
  rw [t.condGE_iff, ht, cmplFlags_sf, cmplFlags_of, ← not_iff_not, ← Ne, cmplSF_ne_cmplOF_iff, not_and_or, not_le,
    not_not]

theorem State.condBE_of_cmplFlags : t.condBE = true ↔ b.toNat ≤ a.toNat := by
  rw [t.condBE_iff, ht, cmplFlags_cf, cmplFlags_zf, cmplCF_iff, cmplZF_iff_eq, le_iff_lt_or_eq, BitVec.toNat_inj,
    eq_comm]

end

/-- A write of FLAGS and the advance of pc change nothing else (42_compare_branch R160). -/
theorem setFlags_advance_frame (s : State) (v : Word) :
    (s.setFlags v).advance.pc = s.pc + 4 ∧ s.sameSlotsBut [flagsSlot] (s.setFlags v).advance ∧
      s.sameMemory (s.setFlags v).advance ∧ s.samePorts (s.setFlags v).advance ∧
      s.sameRun (s.setFlags v).advance := by
  refine ⟨rfl, fun i hi => ?_, fun _ => rfl, ⟨rfl, rfl⟩, rfl, rfl, rfl⟩
  exact s.setSlot_slot_ne (fun h => hi (List.mem_singleton.mpr h.symm)) v

theorem State.setFlags_advance_flags (s : State) (v : Word) : (s.setFlags v).advance.flags = v := by
  rw [State.advance_flags, State.setFlags_flags]

/-! ## The obligations -/

/-- Settles O27: FLAGS is the packed word, whose bits are the flags of the operands. -/
theorem cmplWritesFlags : Obligations.CmplWritesFlags := by
  refine ⟨fun w h => decode_of_opcode_bits h, fun s ra rb => ⟨fun ha hb a b r hra hrb hr => ?_,
    fun ha => exec_illegal_first rfl ha s, fun ha hb => exec_illegal_second rfl ha hb s⟩⟩
  subst hra hrb hr
  refine ⟨_, exec_cmpl_legal ha hb s, ?_⟩
  rw [State.setFlags_advance_flags, cmplFlags_cf, cmplFlags_zf, cmplFlags_sf, cmplFlags_of]
  exact ⟨cmplCF_iff _ _, cmplZF_iff_eq _ _, cmplZF_iff _ _, rfl, cmplOF_iff _ _, fun _ => cmplFlags_other _ _,
    setFlags_advance_frame ..⟩

/-- Settles O28: the usual test is the signed overflow, which OF is but for the one pair, and there it overflows. -/
theorem overflowFormulaDiffersAtOnePair : Obligations.OverflowFormulaDiffersAtOnePair := by
  refine fun a b => ⟨cmplOF_iff a b, ?_, by decide⟩
  rw [signTest_eq_ssubOverflow, Ne, Bool.eq_iff_iff, cmplOF_iff_ssubOverflow]
  have hover : OFException a b → b.ssubOverflow a = true := by
    rintro ⟨rfl, rfl⟩
    decide
  tauto

/-- Settles O35: cmpl leaves its packed word in FLAGS, on which each branch condition is an ordering. -/
theorem branchesAfterCmplFollowTheOrderings : Obligations.BranchesAfterCmplFollowTheOrderings := by
  intro s ra rb imm ha hb a b hra hrb
  subst hra hrb
  have ht := s.setFlags_advance_flags (cmplFlags (s.gpr ⟨ra.toNat, ha⟩) (s.gpr ⟨rb.toNat, hb⟩))
  exact ⟨_, exec_cmpl_legal ha hb s,
    ⟨_, exec_branch_of_iff rfl (State.condE_of_cmplFlags ht), rfl⟩,
    ⟨_, exec_branch_of_iff rfl (State.condL_of_cmplFlags ht), rfl⟩,
    ⟨_, exec_branch_of_iff rfl (State.condLE_of_cmplFlags ht), rfl⟩,
    ⟨_, exec_branch_of_iff rfl (State.condGE_of_cmplFlags ht), rfl⟩,
    ⟨_, exec_branch_of_iff rfl (State.condBE_of_cmplFlags ht), rfl⟩,
    ⟨_, rfl, rfl⟩⟩

/-- Settles O29, by the condition of je. -/
theorem jeBranchesOnZF : Obligations.JeBranchesOnZF :=
  ⟨fun _ h => decode_of_opcode_bits h, fun s _ => exec_branch_of_iff rfl s.condE_iff⟩

/-- Settles O30, by the condition of jl. -/
theorem jlBranchesOnSFNotOF : Obligations.JlBranchesOnSFNotOF :=
  ⟨fun _ h => decode_of_opcode_bits h, fun s _ => exec_branch_of_iff rfl s.condL_iff⟩

/-- Settles O31, by the condition of jle. -/
theorem jleBranchesOnSFNotOFOrZF : Obligations.JleBranchesOnSFNotOFOrZF :=
  ⟨fun _ h => decode_of_opcode_bits h, fun s _ => exec_branch_of_iff rfl s.condLE_iff⟩

/-- Settles O32, by the condition of jge. -/
theorem jgeBranchesOnSFIsOF : Obligations.JgeBranchesOnSFIsOF :=
  ⟨fun _ h => decode_of_opcode_bits h, fun s _ => exec_branch_of_iff rfl s.condGE_iff⟩

/-- Settles O33, by the condition of jbe. -/
theorem jbeBranchesOnCFOrZF : Obligations.JbeBranchesOnCFOrZF :=
  ⟨fun _ h => decode_of_opcode_bits h, fun s _ => exec_branch_of_iff rfl s.condBE_iff⟩

/-- Settles O34: the target is the next pc on every path. -/
theorem jmpAlwaysJumps : Obligations.JmpAlwaysJumps :=
  ⟨fun _ h => decode_of_opcode_bits h, fun _ _ => rfl⟩

end Sys2Proof.Machine

/-! # The stack (43_stack): opcodes 16 to 19 -/

namespace Sys2Proof.Machine

/-! ## Register operands of the stack instructions -/

/-- What follows one legal register check runs on the register it names. -/
theorem useReg_bind {f : FieldName} {q : Field5} (hq : q.toNat < 16) (g : GReg → Except FaultCause State) :
    (do let r ← useReg f q; g r) = g ⟨q.toNat, hq⟩ := by
  rw [useReg_legal f hq]
  rfl

/-- The field that names r6 is 6. -/
theorem spReg_eq_iff {ra : Field5} (ha : ra.toNat < 16) : spReg = ⟨ra.toNat, ha⟩ ↔ ra = 6 := by
  rw [Fin.ext_iff, ← BitVec.toNat_inj, eq_comm]
  rfl

/-! ## A push that lands (43_stack R190) -/

/-- The state after a push of v that goes on at pc p. -/
def State.pushed (s : State) (v p : Word) : State :=
  { s.spDown with dmem := s.dmem.writeWord s.config.byteOrder s.pushAddr.toNat v, pc := p }

/-- An instruction whose push lands goes on from the pushed state, its pc not moved yet. -/
theorem commit_push_inBounds {s : State} (h : inBounds s.pushAddr .word) (v : Word) (g : State → State) :
    commit s (do let t ← s.push v; return g t) = .next (g (s.pushed v s.pc)) := by
  rw [push_word s h]
  rfl

/-- An instruction whose push misses DMEM takes its fault. -/
theorem commit_push_outOfBounds {s : State} (h : ¬ inBounds s.pushAddr .word) (v : Word) (g : State → State) :
    commit s (do let t ← s.push v; return g t) = .next (s.faultedWith (.memoryOutOfRange s.pushAddr .word)) := by
  rw [show s.push v = .error _ from memWrite_out s.spDown h v]
  rfl

theorem State.spDown_gpr (s : State) (r : GReg) :
    s.spDown.gpr r = if spReg = r then BitVec.ofInt 32 s.pushAddr else s.gpr r := s.setSp_gpr _ _

theorem State.pushed_slot_ne (s : State) (v p : Word) {i : Slot} (h : i ≠ spSlot) : (s.pushed v p).slot i = s.slot i :=
  s.setSlot_slot_ne h.symm _

theorem State.pushed_readWord (s : State) (v p : Word) :
    (s.pushed v p).dmem.readWord s.config.byteOrder s.pushAddr.toNat = v := Memory.readWord_writeWord ..

/-- Adding 4 to the pushed SP gives the old SP back, modulo 2^32. -/
theorem State.pushed_sp_add_four (s : State) (v p : Word) : (s.pushed v p).sp + 4 = s.sp :=
  calc (s.pushed v p).sp + 4 = BitVec.ofInt 32 s.pushAddr + BitVec.ofInt 32 4 := by rw [← s.spDown_sp]; rfl
    _ = BitVec.ofInt 32 (s.sp.toInt - 4 + 4) := (BitVec.ofInt_add _ _).symm
    _ = s.sp := by rw [sub_add_cancel, BitVec.ofInt_toInt]

section
variable {s : State} (h : inBounds s.pushAddr .word) (v p : Word)
include h

/-- In bounds the pushed SP is the push address, read as signed. -/
theorem State.pushed_sp_toInt : (s.pushed v p).sp.toInt = s.pushAddr := by
  obtain ⟨hlo, hhi⟩ := (inBounds_word_iff _).mp h
  have hsp : (s.pushed v p).sp = BitVec.ofInt 32 s.pushAddr := s.spDown_sp
  rw [hsp]
  exact BitVec.toInt_ofInt_eq_self (by decide) (by omega) (by omega)

theorem State.pushed_sameMemoryBut : s.sameMemoryBut s.pushAddr .word (s.pushed v p) := by
  obtain ⟨-, -, hmem, -⟩ := push_ok (push_word s h v)
  exact hmem

/-- What a push writes and what it leaves unchanged (43_stack R191, R193). -/
theorem State.pushed_frame :
    (s.pushed v p).dmem.readWord s.config.byteOrder s.pushAddr.toNat = v ∧
      s.sameMemoryBut s.pushAddr .word (s.pushed v p) ∧ (s.pushed v p).sp.toInt = s.pushAddr ∧ (s.pushed v p).pc = p ∧
      s.sameSlotsBut [spSlot] (s.pushed v p) ∧ s.samePorts (s.pushed v p) ∧ s.sameRun (s.pushed v p) :=
  ⟨s.pushed_readWord v p, State.pushed_sameMemoryBut h v p, State.pushed_sp_toInt h v p, rfl,
    fun _ hi => s.pushed_slot_ne v p (List.ne_of_not_mem_cons hi), ⟨rfl, rfl⟩, rfl, rfl, rfl⟩

end

/-! ## A pop that lands (43_stack R190) -/

/-- The word a pop reads. -/
def State.popWord (s : State) : Word := s.dmem.readWord s.config.byteOrder s.popAddr.toNat

/-- SP moved up by 4, modulo 2^32. -/
def State.spUp (s : State) : State := s.setSp (s.sp + 4)

theorem popRead_inBounds {s : State} (h : inBounds s.popAddr .word) : s.popRead = .ok s.popWord := popRead_word s h

theorem popRead_outOfBounds {s : State} (h : ¬ inBounds s.popAddr .word) :
    s.popRead = .error (.memoryOutOfRange s.popAddr .word) := memRead_out s h

@[simp] theorem State.spUp_sp (s : State) : s.spUp.sp = s.sp + 4 := s.setSp_sp _

theorem State.spUp_slot_ne (s : State) {i : Slot} (h : i ≠ spSlot) : s.spUp.slot i = s.slot i :=
  s.setSlot_slot_ne h.symm _

/-- The SP that ret writes is SP + 4 modulo 2^32. -/
theorem State.spUp_eq_setSp_popAddr (s : State) : s.spUp = s.setSp (BitVec.ofInt 32 (s.popAddr + 4)) := by
  rw [BitVec.ofInt_add, State.popAddr, BitVec.ofInt_toInt]
  rfl

/-- Where a pop is in bounds, SP + 4 does not wrap. -/
theorem State.spUp_sp_toInt {s : State} (h : inBounds s.popAddr .word) : s.spUp.sp.toInt = s.sp.toInt + 4 := by
  obtain ⟨hlo, hhi⟩ := (popAddr_inBounds s).mp h
  rw [State.spUp_eq_setSp_popAddr, State.setSp_sp]
  exact BitVec.toInt_ofInt_eq_self (by decide) (by simp only [State.popAddr]; omega) (by simp only [State.popAddr]; omega)

/-- A register write, then SP moved up: nothing else changes (43_stack R194). -/
theorem setGpr_spUp_advance_frame (s : State) (r : GReg) (v : Word) :
    (s.setGpr r v).spUp.advance.pc = s.pc + 4 ∧ s.sameSlotsBut [slotOf r, spSlot] (s.setGpr r v).spUp.advance ∧
      s.sameMemory (s.setGpr r v).spUp.advance ∧ s.samePorts (s.setGpr r v).spUp.advance ∧
      s.sameRun (s.setGpr r v).spUp.advance := by
  refine ⟨rfl, fun i hi => ?_, fun _ => rfl, ⟨rfl, rfl⟩, rfl, rfl, rfl⟩
  obtain ⟨hr, hsp⟩ : i ≠ slotOf r ∧ i ≠ spSlot := by simpa using hi
  exact ((s.setGpr r v).spUp_slot_ne hsp).trans (s.setSlot_slot_ne hr.symm v)

/-! ## The four instructions -/

theorem exec_call_inBounds {s : State} (h : inBounds s.pushAddr .word) (imm : Imm16) :
    exec (.call imm) s = .next (s.pushed s.nextPc (s.target imm)) :=
  commit_push_inBounds h _ fun t => t.setPc (s.target imm)

theorem exec_call_outOfBounds {s : State} (h : ¬ inBounds s.pushAddr .word) (imm : Imm16) :
    exec (.call imm) s = .next (s.faultedWith (.memoryOutOfRange s.pushAddr .word)) := commit_push_outOfBounds h _ _

theorem exec_ret_sentinel {s : State} (h : s.sp = sentinel) : exec .ret s = .next s.halt := if_pos h

/-- Away from the sentinel ret is its pop, with SP moved up. -/
theorem exec_ret_pop {s : State} (h : s.sp ≠ sentinel) :
    exec .ret s = commit s (do let v ← s.popRead; return s.spUp.setPc v) := by
  rw [State.spUp_eq_setSp_popAddr]
  exact if_neg h

/-- No pop is in bounds at the sentinel. -/
theorem sp_ne_sentinel {s : State} (h : inBounds s.popAddr .word) : s.sp ≠ sentinel := by
  intro hs
  have hint : s.sp.toInt = 1024 := congrArg BitVec.toInt hs
  have := (popAddr_inBounds s).mp h
  omega

theorem exec_ret_inBounds {s : State} (h : inBounds s.popAddr .word) :
    exec .ret s = .next (s.spUp.setPc s.popWord) := by
  rw [exec_ret_pop (sp_ne_sentinel h), popRead_inBounds h]
  rfl

theorem exec_ret_outOfBounds {s : State} (hs : s.sp ≠ sentinel) (h : ¬ inBounds s.popAddr .word) :
    exec .ret s = .next (s.faultedWith (.memoryOutOfRange s.popAddr .word)) := by
  rw [exec_ret_pop hs, popRead_outOfBounds h]
  rfl

section
variable {ra : Field5} (ha : ra.toNat < 16) {s : State}

/-- With a legal field pushl is a push of the register, read after SP has moved down. -/
theorem exec_pushl_legal :
    exec (.pushl ra) s = commit s (do let t ← s.push (s.spDown.gpr ⟨ra.toNat, ha⟩); return t.advance) :=
  congrArg (commit s) (useReg_bind ha _)

theorem exec_pushl_inBounds (h : inBounds s.pushAddr .word) :
    exec (.pushl ra) s = .next (s.pushed (s.spDown.gpr ⟨ra.toNat, ha⟩) s.nextPc) :=
  (exec_pushl_legal ha).trans (commit_push_inBounds h _ State.advance)

include ha in
theorem exec_pushl_outOfBounds (h : ¬ inBounds s.pushAddr .word) :
    exec (.pushl ra) s = .next (s.faultedWith (.memoryOutOfRange s.pushAddr .word)) :=
  (exec_pushl_legal ha).trans (commit_push_outOfBounds h _ _)

/-- With a legal field popl is a pop into the register, SP moved up after the register is written. -/
theorem exec_popl_legal :
    exec (.popl ra) s = commit s (do let v ← s.popRead; return (s.setGpr ⟨ra.toNat, ha⟩ v).spUp.advance) :=
  congrArg (commit s) (useReg_bind ha _)

theorem exec_popl_inBounds (h : inBounds s.popAddr .word) :
    exec (.popl ra) s = .next (s.setGpr ⟨ra.toNat, ha⟩ s.popWord).spUp.advance := by
  rw [exec_popl_legal ha, popRead_inBounds h]
  rfl

include ha in
theorem exec_popl_outOfBounds (h : ¬ inBounds s.popAddr .word) :
    exec (.popl ra) s = .next (s.faultedWith (.memoryOutOfRange s.popAddr .word)) := by
  rw [exec_popl_legal ha, popRead_outOfBounds h]
  rfl

end

/-! ## The obligations of the four instructions -/

/-- Settles O36: in bounds the push of pc + 4 and its frame, outside the fault of the push. -/
theorem callPushesReturnAddressAndJumps : Obligations.CallPushesReturnAddressAndJumps := by
  refine ⟨fun w h => decode_of_opcode_bits h, fun s imm a ha => ?_⟩
  subst ha
  refine ⟨rfl, fun h4 h1024 => ?_, fun hout => exec_call_outOfBounds (mt (pushAddr_inBounds s).mp (by omega)) imm⟩
  have hin := (pushAddr_inBounds s).mpr ⟨h4, h1024⟩
  exact ⟨_, exec_call_inBounds hin imm, State.pushed_frame hin ..⟩

/-- Settles O37: the sentinel, the pop, and the fault of the pop. -/
theorem retHaltsAtSentinelElsePopsPc : Obligations.RetHaltsAtSentinelElsePopsPc := by
  refine ⟨fun w h => decode_of_opcode_bits h, fun s => ⟨exec_ret_sentinel, fun h0 h1020 => ?_,
    fun hs hout => exec_ret_outOfBounds hs (mt (popAddr_inBounds s).mp (by omega))⟩⟩
  have hin := (popAddr_inBounds s).mpr ⟨h0, h1020⟩
  exact ⟨_, exec_ret_inBounds hin, rfl, State.spUp_sp_toInt hin, fun _ hi => s.spUp_slot_ne (List.ne_of_not_mem_cons hi),
    fun _ => rfl, ⟨rfl, rfl⟩, rfl, rfl, rfl⟩

/-- Settles O38: in bounds the push of x[ra], read after SP has moved down, outside the fault of the push. -/
theorem pushlStoresBelowSp : Obligations.PushlStoresBelowSp := by
  refine ⟨fun w h => decode_of_opcode_bits h, fun s ra => ⟨fun ha a haddr => ?_, fun ha => exec_illegal_first rfl ha s⟩⟩
  subst haddr
  refine ⟨rfl, fun h4 h1024 => ?_, fun hout => exec_pushl_outOfBounds ha (mt (pushAddr_inBounds s).mp (by omega))⟩
  have hin := (pushAddr_inBounds s).mpr ⟨h4, h1024⟩
  have hvalue : s.spDown.gpr ⟨ra.toNat, ha⟩ =
      if ra = 6 then BitVec.ofInt 32 s.pushAddr else s.gpr ⟨ra.toNat, ha⟩ :=
    (s.spDown_gpr _).trans (if_congr (spReg_eq_iff ha) rfl rfl)
  rw [← hvalue]
  exact ⟨_, exec_pushl_inBounds ha hin, State.pushed_frame hin ..⟩

/-- Settles O39: in bounds SP moves up from the old SP, or from the loaded value where ra is r6; outside the fault. -/
theorem poplLoadsFromSp : Obligations.PoplLoadsFromSp := by
  refine ⟨fun w h => decode_of_opcode_bits h, fun s ra => ⟨fun ha v hv => ?_, fun ha => exec_illegal_first rfl ha s⟩⟩
  obtain rfl : v = s.popWord := hv
  refine ⟨fun h0 h1020 => ?_, fun hout => exec_popl_outOfBounds ha (mt (popAddr_inBounds s).mp (by omega))⟩
  have hin := (popAddr_inBounds s).mpr ⟨h0, h1020⟩
  refine ⟨_, exec_popl_inBounds ha hin, fun h6 => ?_, fun h6 => ?_, setGpr_spUp_advance_frame ..⟩
  · have hne : spReg ≠ ⟨ra.toNat, ha⟩ := mt (spReg_eq_iff ha).mp h6
    have hgpr : (s.setGpr ⟨ra.toNat, ha⟩ s.popWord).spUp.gpr ⟨ra.toNat, ha⟩ = s.popWord := by
      rw [State.spUp, State.setSp_gpr, if_neg hne, State.setGpr_gpr_self]
    have hsp : (s.setGpr ⟨ra.toNat, ha⟩ s.popWord).spUp.sp = s.spUp.sp := by
      rw [State.spUp_sp, State.setGpr_sp, if_neg hne.symm, State.spUp_sp]
    exact ⟨hgpr, (congrArg BitVec.toInt hsp).trans (State.spUp_sp_toInt hin)⟩
  · rw [State.advance_sp, State.spUp_sp, State.setGpr_sp, if_pos ((spReg_eq_iff ha).mpr h6).symm]

/-! ## Instructions one after another -/

theorem execAll_cons_running {i : Instr} {s t : State} (is : List Instr) (h : exec i s = .next t)
    (ht : t.status = .running) : execAll (i :: is) s = execAll is t := by
  simp only [execAll, h, if_pos ht]

theorem execAll_cons_stopped {i : Instr} {s t : State} (is : List Instr) (h : exec i s = .next t)
    (ht : t.status ≠ .running) : execAll (i :: is) s = .next t := by
  simp only [execAll, h, if_neg ht]

/-- A sequence that leaves the core Running goes on with what follows it. -/
theorem execAll_append (is js : List Instr) {s t : State} (h : execAll is s = .next t) (ht : t.status = .running) :
    execAll (is ++ js) s = execAll js t := by
  induction is generalizing s with
  | nil => cases h; rfl
  | cons i is ih =>
    rw [List.cons_append]
    cases hi : exec i s with
    | next u =>
      by_cases hu : u.status = .running
      · rw [execAll_cons_running _ hi hu] at h ⊢
        exact ih h
      · rw [execAll_cons_stopped _ hi hu] at h
        cases h
        exact absurd ht hu
    | fault r | refused r => simp only [execAll, hi] at h; cases h

/-! ## Pops undo pushes (43_stack R196) -/

/-- t is s again, but for the pc, the ports, IMEM and the n words of DMEM below SP. -/
structure RestoredBelow (n : Nat) (s t : State) : Prop where
  status : t.status = s.status
  config : t.config = s.config
  slots : ∀ i : Slot, t.slot i = s.slot i
  bytes : ∀ k : Nat, (k : Int) < s.sp.toInt - 4 * n ∨ s.sp.toInt ≤ k → t.dmem.read k = s.dmem.read k

theorem RestoredBelow.refl (s : State) : RestoredBelow 0 s s := ⟨rfl, rfl, fun _ => rfl, fun _ _ => rfl⟩

theorem Memory.readWord_congr {m m' : Memory} {a : Nat} (o : ByteOrder) (h : ∀ k, a ≤ k → m.read k = m'.read k) :
    m.readWord o a = m'.readWord o a := by
  have h0 := h a le_rfl
  have h1 := h (a + 1) (Nat.le_add_right ..)
  have h2 := h (a + 2) (Nat.le_add_right ..)
  have h3 := h (a + 3) (Nat.le_add_right ..)
  cases o with
  | little | big => simp only [Memory.readWord, h0, h1, h2, h3]

section
variable {n : Nat} {s t : State} {v p : Word} (hin : inBounds s.pushAddr .word)
  (h : RestoredBelow n (s.pushed v p) t)
include hin h

theorem RestoredBelow.popAddr_eq : t.popAddr = s.pushAddr :=
  (congrArg BitVec.toInt (h.slots spSlot)).trans (State.pushed_sp_toInt hin v p)

/-- The next pop reads the word that was pushed. -/
theorem RestoredBelow.popWord_eq : t.popWord = v := by
  obtain ⟨hlo, -⟩ := (inBounds_word_iff _).mp hin
  have hconfig : t.config = s.config := h.config
  have hbytes : ∀ k, s.pushAddr.toNat ≤ k → t.dmem.read k = (s.pushed v p).dmem.read k := fun k hk =>
    h.bytes k (.inr (by rw [State.pushed_sp_toInt hin]; omega))
  rw [State.popWord, h.popAddr_eq hin, hconfig, Memory.readWord_congr _ hbytes, State.pushed_readWord]

/-- Moving SP up gives the state before the push back, one word more of DMEM below SP being left over. -/
theorem RestoredBelow.spUp (q : Word) : RestoredBelow (n + 1) s (t.spUp.setPc q) := by
  refine ⟨h.status, h.config, fun i => ?_, fun k hk => ?_⟩
  · by_cases hi : i = spSlot
    · subst hi
      calc (t.spUp.setPc q).slot spSlot = t.sp + 4 := t.spUp_sp
        _ = (s.pushed v p).sp + 4 := congrArg (· + 4) (h.slots spSlot)
        _ = s.slot spSlot := s.pushed_sp_add_four v p
    · exact (t.spUp_slot_ne hi).trans ((h.slots i).trans (s.pushed_slot_ne v p hi))
  · have haddr : s.pushAddr = s.sp.toInt - 4 := rfl
    have hpopped : t.dmem.read k = (s.pushed v p).dmem.read k :=
      h.bytes k (by rw [State.pushed_sp_toInt hin]; omega)
    exact hpopped.trans (State.pushed_sameMemoryBut hin v p k (by simp only [Width.bytes]; omega))

end

theorem State.setGpr_self (s : State) (r : GReg) : s.setGpr r (s.gpr r) = s :=
  congrArg (fun x => { s with x := x }) (Vector.set_getElem_self _)

/-- pushl, anything that restores the state, then popl of the same register: popl writes what the register already
holds (r6 too, whose pushed value is the SP after the push), and SP moves up. -/
theorem exec_popl_of_restored {ra : Field5} (ha : ra.toNat < 16) {n : Nat} {s t : State} {p : Word}
    (hin : inBounds s.pushAddr .word)
    (h : RestoredBelow n (s.pushed (s.spDown.gpr ⟨ra.toNat, ha⟩) p) t) :
    exec (.popl ra) t = .next t.spUp.advance := by
  have hpop : inBounds t.popAddr .word := by rwa [h.popAddr_eq hin]
  have hgpr : t.popWord = t.gpr ⟨ra.toNat, ha⟩ := (h.popWord_eq hin).trans (h.slots (slotOf _)).symm
  rw [exec_popl_inBounds ha hpop, hgpr, State.setGpr_self]

/-- Pushes of any legal registers, then the pops in reverse order, restore the state: each pop undoes the push that
stands around what the pushes and pops between them restore. -/
theorem execAll_pushes_pops (rs : List Field5) (hlegal : ∀ r ∈ rs, r.toNat < 16) {s : State}
    (hs : s.status = .running) (hfit : 4 * (rs.length : Int) ≤ s.sp.toInt) (htop : s.sp.toInt ≤ 1024) :
    ∃ t, execAll (rs.map .pushl ++ rs.reverse.map .popl) s = .next t ∧ RestoredBelow rs.length s t := by
  induction rs generalizing s with
  | nil => exact ⟨s, rfl, .refl s⟩
  | cons r rs ih =>
    obtain ⟨hr, hrs⟩ := List.forall_mem_cons.mp hlegal
    rw [List.length_cons] at hfit
    have hin : inBounds s.pushAddr .word := (pushAddr_inBounds s).mpr ⟨by omega, htop⟩
    have hsp : (s.pushed (s.spDown.gpr ⟨r.toNat, hr⟩) s.nextPc).sp.toInt = s.sp.toInt - 4 :=
      State.pushed_sp_toInt hin _ _
    obtain ⟨t, hexec, ht⟩ := ih hrs (s := s.pushed (s.spDown.gpr ⟨r.toNat, hr⟩) s.nextPc) hs (by omega) (by omega)
    have hpop := exec_popl_of_restored hr hin ht
    have hrun : t.status = .running := ht.status.trans hs
    refine ⟨t.spUp.advance, ?_, ht.spUp hin _⟩
    calc execAll ((r :: rs).map .pushl ++ (r :: rs).reverse.map .popl) s
        = execAll (.pushl r :: ((rs.map .pushl ++ rs.reverse.map .popl) ++ [.popl r])) s := by simp
      _ = execAll ((rs.map .pushl ++ rs.reverse.map .popl) ++ [.popl r])
            (s.pushed (s.spDown.gpr ⟨r.toNat, hr⟩) s.nextPc) := execAll_cons_running _ (exec_pushl_inBounds hr hin) hs
      _ = execAll [.popl r] t := execAll_append _ _ hexec hrun
      _ = .next t.spUp.advance := execAll_cons_running [] hpop hrun

/-- Settles O40, by `execAll_pushes_pops`. -/
theorem pushesThenReversePopsRestoreRegisters : Obligations.PushesThenReversePopsRestoreRegisters := by
  intro s rs hs hlegal hfit htop
  obtain ⟨t, hexec, ht⟩ := execAll_pushes_pops rs (fun r hr => (hlegal r hr).1) hs hfit htop
  exact ⟨t, hexec, ht.status.trans hs, ht.slots, ht.bytes⟩

/-- Settles O41, by `execAll_pushes_pops` for r6 alone. -/
theorem pushSpThenPopSpRestoresSp : Obligations.PushSpThenPopSpRestoresSp := by
  intro s hs h4 htop
  obtain ⟨t, hexec, ht⟩ := execAll_pushes_pops [6] (by decide) hs (by simpa using h4) htop
  exact ⟨t, hexec, ht.status.trans hs, ht.slots⟩

/-- Settles O42: ret pops the return address that call pushed, and SP moves up again. -/
theorem callThenRetReturns : Obligations.CallThenRetReturns := by
  intro s imm hs h4 htop
  have hin : inBounds s.pushAddr .word := (pushAddr_inBounds s).mpr ⟨h4, htop⟩
  have hrefl := RestoredBelow.refl (s.pushed s.nextPc (s.target imm))
  have hpop : inBounds (s.pushed s.nextPc (s.target imm)).popAddr .word := by rwa [hrefl.popAddr_eq hin]
  have hback := hrefl.spUp hin (s.pushed s.nextPc (s.target imm)).popWord
  refine ⟨_, ?_, hback.status.trans hs, hrefl.popWord_eq hin, hback.slots⟩
  rw [execAll_cons_running _ (exec_call_inBounds hin imm) hs]
  exact execAll_cons_running [] (exec_ret_inBounds hpop) hs

/-! ## How many entries fit (43_stack R196 (d)) -/

/-- k pushes of a register all complete exactly if their words fit below SP. -/
theorem execAll_replicate_pushl {ra : Field5} (ha : ra.toNat < 16) (k : Nat) {s : State} (hs : s.status = .running)
    (h0 : 0 ≤ s.sp.toInt) (htop : s.sp.toInt ≤ 1024) :
    ∃ t, execAll (List.replicate k (.pushl ra)) s = .next t ∧ (t.status = .running ↔ 4 * (k : Int) ≤ s.sp.toInt) := by
  induction k generalizing s with
  | zero => exact ⟨s, rfl, iff_of_true hs (by omega)⟩
  | succ k ih =>
    rw [List.replicate_succ]
    by_cases h4 : 4 ≤ s.sp.toInt
    · have hin : inBounds s.pushAddr .word := (pushAddr_inBounds s).mpr ⟨h4, htop⟩
      have hsp : (s.pushed (s.spDown.gpr ⟨ra.toNat, ha⟩) s.nextPc).sp.toInt = s.sp.toInt - 4 :=
        State.pushed_sp_toInt hin _ _
      obtain ⟨t, hexec, ht⟩ := ih (s := s.pushed (s.spDown.gpr ⟨ra.toNat, ha⟩) s.nextPc) hs (by omega) (by omega)
      refine ⟨t, (execAll_cons_running _ (exec_pushl_inBounds ha hin) hs).trans hexec, ht.trans ?_⟩
      omega
    · have hout : ¬ inBounds s.pushAddr .word := mt (pushAddr_inBounds s).mp (by omega)
      have hstop : (s.faultedWith (.memoryOutOfRange s.pushAddr .word)).status ≠ .running := nofun
      exact ⟨_, execAll_cons_stopped _ (exec_pushl_outOfBounds ha hout) hstop, iff_of_false hstop (by omega)⟩

/-- Settles O43, by `execAll_replicate_pushl` at SP = 1024. -/
theorem stackHolds256Entries : Obligations.StackHolds256Entries := by
  intro s ra k hs hsp ha
  have hint : s.sp.toInt = 1024 := congrArg BitVec.toInt hsp
  obtain ⟨t, hexec, ht⟩ := execAll_replicate_pushl ha k hs (by omega) (by omega)
  exact ⟨t, hexec, ht.trans (by omega)⟩

end Sys2Proof.Machine

/-! # Input and output (44_io): opcodes 20 and 21, the ports over steps and runs, the host's text -/

namespace Sys2Proof.Machine

/-! ## The two instructions -/

section
variable {ra : Field5} (ha : ra.toNat < 16) (s : State)

theorem exec_printr_legal : exec (.printr ra) s = .next (s.emit (s.gpr ⟨ra.toNat, ha⟩)).advance :=
  commit_useReg ha s fun a => (s.emit (s.gpr a)).advance

variable {s}

/-- With the next answer a value, readr takes it (44_io R212). -/
theorem exec_readr_value {v : Word} {rest : List Answer} (hin : s.input = .value v :: rest) :
    exec (.readr ra) s = .next (s.dropAnswer.setGpr ⟨ra.toNat, ha⟩ v).advance := by
  rw [exec, execReadr, useReg_bind ha, hin]
  rfl

include ha

/-- With the next answer `fail`, readr faults (44_io R212). -/
theorem exec_readr_fail {rest : List Answer} (hin : s.input = .fail :: rest) :
    exec (.readr ra) s = .next (s.faultedWith .inputError) := by
  rw [exec, execReadr, useReg_bind ha, hin]
  rfl

/-- With no answer yet, readr waits in place (44_io R212 (a); log 6). -/
theorem exec_readr_wait (hin : s.input = []) : exec (.readr ra) s = .next s := by
  rw [exec, execReadr, useReg_bind ha, hin]
  rfl

end

/-! ## What an instruction and a step do to the ports (44_io R210) -/

theorem memWrite_samePorts {s t : State} {a : Int} {n : Width} {v : Word} (h : s.memWrite a n v = .ok t) :
    s.samePorts t := by
  obtain ⟨-, ht, -, -⟩ := memWrite_ok h
  rw [ht]
  exact ⟨rfl, rfl⟩

theorem push_samePorts {s t : State} {v : Word} (h : s.push v = .ok t) : s.samePorts t :=
  memWrite_samePorts (s := s.spDown) h

/-- The three things an instruction that takes s to t can do to the ports: nothing; a printr appends one value and goes
on; a readr takes the oldest answer. -/
inductive PortEffect (s t : State) : Instr → Prop where
  | same {i : Instr} (h : s.samePorts t) : PortEffect s t i
  | emits {ra : Field5} (v : Word) (status : t.status = s.status) (output : t.output = s.output ++ [v])
      (input : t.input = s.input) : PortEffect s t (.printr ra)
  | takes {ra : Field5} (r : Answer) (output : t.output = s.output) (input : s.input = r :: t.input) :
      PortEffect s t (.readr ra)

/-- A fault leaves the ports alone (60_exceptions R238). -/
theorem faultedWith_samePorts (s : State) (c : FaultCause) : s.samePorts (s.faultedWith c) := ⟨rfl, rfl⟩

theorem exec_printr_portEffect {ra : Field5} {s t : State} (h : exec (.printr ra) s = .next t) :
    PortEffect s t (.printr ra) := by
  by_cases ha : ra.toNat < 16
  · cases (exec_printr_legal ha s).symm.trans h
    exact .emits _ rfl rfl rfl
  · cases (exec_illegal_first rfl (by omega) s).symm.trans h
    exact .same (faultedWith_samePorts s _)

theorem exec_readr_portEffect {ra : Field5} {s t : State} (h : exec (.readr ra) s = .next t) :
    PortEffect s t (.readr ra) := by
  by_cases ha : ra.toNat < 16
  · cases hin : s.input with
    | nil =>
      cases (exec_readr_wait ha hin).symm.trans h
      exact .same ⟨rfl, rfl⟩
    | cons r rest =>
      cases r with
      | fail =>
        cases (exec_readr_fail ha hin).symm.trans h
        exact .same (faultedWith_samePorts s _)
      | value v =>
        cases (exec_readr_value ha hin).symm.trans h
        exact .takes (.value v) rfl (by simp [hin])
  · cases (exec_illegal_first rfl (by omega) s).symm.trans h
    exact .same (faultedWith_samePorts s _)

/-- Only printr and readr touch the ports: a store changes DMEM alone, and the others write registers, the pc or the
status. -/
theorem exec_portEffect {i : Instr} {s t : State} (h : exec i s = .next t) : PortEffect s t i := by
  have hst : ∀ st, s.samePorts { s with status := st } := fun _ => ⟨rfl, rfl⟩
  cases i with
  | printr => exact exec_printr_portEffect h
  | readr => exact exec_readr_portEffect h
  | subl | addlImmReg | shrl | movlImmReg =>
    exact .same (OkSat.commit h hst (.bind fun _ _ => .pure ⟨rfl, rfl⟩))
  | addlRegReg | imull | movlRegReg | cmpl | popl =>
    exact .same (OkSat.commit h hst (.bind fun _ _ => .bind fun _ _ => .pure ⟨rfl, rfl⟩))
  | movlDerefReg =>
    exact .same (OkSat.commit h hst (.bind fun _ _ => .bind fun _ _ => .bind fun _ _ => .pure ⟨rfl, rfl⟩))
  | je | jl | jle | jge | jbe | jmp => cases h; exact .same ⟨rfl, rfl⟩
  | movlRegDeref =>
    exact .same (OkSat.commit h hst (.bind fun _ _ => .bind fun _ _ => .bind fun t ht =>
      .pure (show s.samePorts t from memWrite_samePorts ht)))
  | call => exact .same (OkSat.commit h hst (.bind fun t ht => .pure (show s.samePorts t from push_samePorts ht)))
  | pushl =>
    exact .same (OkSat.commit h hst (.bind fun _ _ => .bind fun t ht =>
      .pure (show s.samePorts t from push_samePorts ht)))
  | ret =>
    by_cases hs : s.sp = sentinel
    · cases (exec_ret_sentinel hs).symm.trans h
      exact .same ⟨rfl, rfl⟩
    · rw [exec_ret_pop hs] at h
      exact .same (OkSat.commit h hst (.bind fun _ _ => .pure ⟨rfl, rfl⟩))

/-- A step that takes an answer or emits a value runs the instruction it fetched: all other steps change the status
alone (30_encoding R100). -/
theorem step_portEffect {s t : State} (h : step s = .next t) :
    s.samePorts t ∨ ∃ w i, s.fetched = some w ∧ decode w = .ok i ∧ PortEffect s t i := by
  rcases step_running (step_next_running h) with
    ⟨-, hs⟩ | ⟨-, hs⟩ | ⟨-, -, hs⟩ | ⟨w, hw, ⟨e, -, hs⟩ | ⟨i, hd, hs⟩⟩ <;> rw [h] at hs
  case inr.inr.inr.inr => exact .inr ⟨w, i, hw, hd, exec_portEffect hs.symm⟩
  all_goals cases hs; exact .inl ⟨rfl, rfl⟩

/-! ## The output history (44_io R215) -/

/-- A step appends at most one value, and then the core goes on Running. -/
theorem step_output {s t : State} (h : step s = .next t) :
    t.output = s.output ∨ t.status = .running ∧ ∃ v, t.output = s.output ++ [v] := by
  rcases step_portEffect h with ⟨hout, -⟩ | ⟨w, i, -, -, heffect⟩
  · exact .inl hout
  · cases heffect with
    | same hports => exact .inl hports.1
    | emits v hstatus hout => exact .inr ⟨hstatus.trans (step_next_running h), v, hout⟩
    | takes r hout => exact .inl hout

theorem step_output_prefix {s t : State} (h : step s = .next t) : s.output <+: t.output := by
  rcases step_output h with hout | ⟨-, v, hout⟩ <;> rw [hout]
  exact List.prefix_append ..

theorem run_output_prefix (s : State) (k : Nat) : s.output <+: (s.run k).output :=
  State.run_rel (R := fun s t => s.output <+: t.output) (fun _ => List.prefix_rfl) (fun _ _ _ => List.IsPrefix.trans)
    (fun _ _ => step_output_prefix) k s

/-- An observation holds the whole history (60_exceptions R242). -/
theorem State.observe_output {s : State} {o : Observation} (h : s.observe = some o) : o.output = s.output := by
  unfold State.observe at h
  split at h <;> cases h <;> rfl

/-- Settles O59: `step_output` for one step, `run_output_prefix` for a run, `State.observe_output` for its end. -/
theorem outputHistoryOnlyGrows : Obligations.OutputHistoryOnlyGrows := by
  refine ⟨fun s t h => ?_, run_output_prefix, fun _ _ => State.observe_output⟩
  rcases step_output h with hout | ⟨hrun, hout⟩
  · exact ⟨.inl hout, fun _ => hout⟩
  · exact ⟨.inr hout, fun hend => absurd hrun hend⟩

/-- Settles O60, by `step_portEffect`. -/
theorem answersAreTakenInOrderByReadrOnly : Obligations.AnswersAreTakenInOrderByReadrOnly := by
  intro s t h
  rcases step_portEffect h with ⟨-, hin⟩ | ⟨w, i, hw, hd, heffect⟩
  · exact .inl hin
  · cases heffect with
    | same hports => exact .inl hports.2
    | emits _ _ _ hin => exact .inl hin
    | takes r _ hin => exact .inr ⟨⟨r, hin⟩, w, _, hw, hd⟩

/-! ## The obligations of the two instructions -/

/-- Settles O44: the emitted state and its frame, or the fault of the register check. -/
theorem printrEmitsRegister : Obligations.PrintrEmitsRegister := by
  refine ⟨fun w h => decode_of_opcode_bits h, fun s ra => ⟨fun ha => ?_, fun ha => exec_illegal_first rfl ha s⟩⟩
  exact ⟨_, exec_printr_legal ha s, rfl, rfl, rfl, fun _ _ => rfl, fun _ => rfl, rfl, rfl, rfl⟩

/-- Settles O45: the write of x[ra] after the answer is taken off, the fault of `fail`, the fault of the register
check. -/
theorem readrTakesTheNextAnswer : Obligations.ReadrTakesTheNextAnswer := by
  refine ⟨fun w h => decode_of_opcode_bits h, fun s ra rest => ⟨fun ha v hin => ?_,
    fun ha => exec_readr_fail ha, fun ha => exec_illegal_first rfl ha s⟩⟩
  obtain ⟨hpc, hslots, hmem, ⟨hout, hrest⟩, hrun⟩ := setGpr_advance_frame s.dropAnswer ⟨ra.toNat, ha⟩ v
  have htail : s.dropAnswer.input = rest := congrArg List.tail hin
  exact ⟨_, exec_readr_value ha hin, State.setGpr_gpr_self .., hrest.trans htail, hout, hpc, hslots, hmem, hrun⟩

/-- Settles O46: the wait, then the value that the host has answered with. -/
theorem readrWaitsUntilTheHostAnswers : Obligations.ReadrWaitsUntilTheHostAnswers := by
  intro s ra v ha hin
  have hanswered : (s.withAnswer (.value v)).input = [.value v] := by rw [State.withAnswer_input, hin, List.nil_append]
  exact ⟨exec_readr_wait ha hin, _, exec_readr_value ha hanswered, State.setGpr_gpr_self ..,
    congrArg List.tail hanswered⟩

/-! ## The host's text (44_io R213, R214) -/

/-- The last digit of a run counts once, what stands before it counts base times. -/
theorem digitsFrom_concat {digit : Char → Option Nat} {base acc n d : Nat} {cs : List Char} {c : Char}
    (hcs : digitsFrom digit base acc cs = some n) (hc : digit c = some d) :
    digitsFrom digit base acc (cs ++ [c]) = some (base * n + d) := by
  induction cs generalizing acc with
  | nil =>
    cases hcs
    simp [digitsFrom, hc]
  | cons e es ih =>
    simp only [List.cons_append, digitsFrom] at hcs ⊢
    split at hcs
    · exact ih hcs
    · cases hcs

theorem decDigit_digitChar : ∀ d < 10, decDigit (Nat.digitChar d) = some d := by decide

/-- Reading the decimal digits of n gives n back. -/
theorem digitsFrom_toDigits (n : Nat) : digitsFrom decDigit 10 0 (Nat.toDigits 10 n) = some n := by
  induction n using Nat.strongRecOn with
  | ind n ih =>
    by_cases hn : n < 10
    · simp [Nat.toDigits_of_lt_base hn, digitsFrom, decDigit_digitChar n hn]
    · rw [Nat.toDigits_of_base_le (by decide) (Nat.not_lt.mp hn),
        digitsFrom_concat (ih (n / 10) (by omega)) (decDigit_digitChar (n % 10) (by omega)), Nat.div_add_mod]

theorem digits_toDigits (n : Nat) : digits decDigit 10 (Nat.toDigits 10 n) = some n := by
  rw [digits, if_neg (by simp [Nat.toDigits_ne_nil]), digitsFrom_toDigits]

/-- Digits alone are read without a sign: no sign is a digit. -/
theorem signedToken_of_digits {cs : List Char} {n : Nat} (h : digits decDigit 10 cs = some n) :
    signedToken cs = some (n : Int) := by
  unfold signedToken
  split
  · cases h
  · cases h
  · rw [h]
    rfl

/-- Digits behind a minus sign are read as the negative. -/
theorem signedToken_minus_of_digits {cs : List Char} {n : Nat} (h : digits decDigit 10 cs = some n) :
    signedToken ('-' :: cs) = some (-(n : Int)) := by
  rw [signedToken, h]
  rfl

/-- The token the host writes for a value denotes its signed reading. -/
theorem signedToken_signedDecimal (v : Word) : signedToken (signedDecimal v) = some v.toInt := by
  have hdigits := digits_toDigits v.toInt.natAbs
  rw [signedDecimal]
  split
  · next hneg =>
    rw [signedToken_minus_of_digits hdigits, Int.ofNat_natAbs_of_nonpos hneg.le, neg_neg]
  · next hpos =>
    rw [signedToken_of_digits hdigits, Int.natAbs_of_nonneg (not_lt.mp hpos)]

/-- Settles O47: the signed reading is in range, and it determines the value. -/
theorem printedDecimalReadsBack : Obligations.PrintedDecimalReadsBack := by
  intro v
  obtain ⟨hlo, hhi⟩ := toInt_bounds v
  have hrange : -2147483648 ≤ v.toInt ∧ v.toInt ≤ 2147483647 := ⟨hlo, by omega⟩
  simp only [tokenAnswer, signedToken_signedDecimal, if_pos hrange, BitVec.ofInt_toInt]

end Sys2Proof.Machine

/-! # Faults and normal ends (60_exceptions): what an instruction and a step end in -/

namespace Sys2Proof.Machine

/-! ## How an instruction ends -/

/-- The causes an instruction can record once it is decoded: InputError is readr's alone (60_exceptions R233, R234,
R237). -/
inductive ExecCause : Instr → FaultCause → Prop where
  | illegalRegister {i : Instr} (f : FieldName) (q : Field5) : ExecCause i (.illegalRegister f q)
  | memoryOutOfRange {i : Instr} (a : Int) (n : Width) : ExecCause i (.memoryOutOfRange a n)
  | inputError (ra : Field5) : ExecCause (.readr ra) .inputError

/-- The answer r of instruction i keeps the status of s, or is one of the causes of i. -/
def KeepsStatusOrFaults (s : State) (i : Instr) (r : Except FaultCause State) : Prop :=
  match r with
  | .ok t => t.status = s.status
  | .error c => ExecCause i c

section
variable {s : State} {i : Instr}

theorem KeepsStatusOrFaults.pure {t : State} (h : t.status = s.status) : KeepsStatusOrFaults s i (Pure.pure t) := h

theorem KeepsStatusOrFaults.bind {α : Type} {r : Except FaultCause α} {g : α → Except FaultCause State}
    (herror : ∀ c, r = .error c → ExecCause i c) (hok : ∀ a, r = .ok a → KeepsStatusOrFaults s i (g a)) :
    KeepsStatusOrFaults s i (r >>= g) := by
  cases r with
  | ok a => exact hok a rfl
  | error c => exact herror c rfl

theorem KeepsStatusOrFaults.useReg_bind {f : FieldName} {q : Field5} {g : GReg → Except FaultCause State}
    (h : ∀ a, KeepsStatusOrFaults s i (g a)) : KeepsStatusOrFaults s i (useReg f q >>= g) :=
  .bind (fun _ hc => (useReg_error hc).2 ▸ .illegalRegister f q) fun a _ => h a

theorem KeepsStatusOrFaults.memRead_bind {u : State} {a : Int} {n : Width} {g : Word → Except FaultCause State}
    (h : ∀ v, KeepsStatusOrFaults s i (g v)) : KeepsStatusOrFaults s i (u.memRead a n >>= g) :=
  .bind (fun _ hc => (memRead_error hc).2 ▸ .memoryOutOfRange a n) fun v _ => h v

/-- A store that lands keeps the status of the state it stores in. -/
theorem KeepsStatusOrFaults.memWrite_bind {u : State} (hu : u.status = s.status) {a : Int} {n : Width} {v : Word}
    {g : State → State} (hg : ∀ t, (g t).status = t.status) :
    KeepsStatusOrFaults s i (do let t ← u.memWrite a n v; return g t) :=
  .bind (fun _ hc => (memWrite_error hc).2 ▸ .memoryOutOfRange a n)
    fun t ht => .pure ((hg t).trans ((memWrite_status ht).trans hu))

end

/-- The three ends of an instruction that takes s to t: it completes in the same status, it is the ret that halts, or it
faults with the status alone changed (60_exceptions R238, R241). -/
inductive ExecOutcome (s : State) : Instr → State → Prop where
  | completes {i : Instr} {t : State} (status : t.status = s.status) : ExecOutcome s i t
  | halts (sp : s.sp = sentinel) : ExecOutcome s .ret s.halt
  | faults {i : Instr} {c : FaultCause} (cause : ExecCause i c) : ExecOutcome s i (s.faultedWith c)

theorem KeepsStatusOrFaults.outcome {s t : State} {i : Instr} {r : Except FaultCause State}
    (ht : commit s r = .next t) (h : KeepsStatusOrFaults s i r) : ExecOutcome s i t := by
  rcases commit_next ht with rfl | ⟨c, rfl, rfl⟩
  · exact .completes h
  · exact .faults h

theorem exec_outcome {i : Instr} {s t : State} (h : exec i s = .next t) : ExecOutcome s i t := by
  cases i with
  | subl | addlImmReg | shrl | movlImmReg | printr =>
    exact KeepsStatusOrFaults.outcome h (.useReg_bind fun _ => .pure rfl)
  | addlRegReg | imull | movlRegReg | cmpl =>
    exact KeepsStatusOrFaults.outcome h (.useReg_bind fun _ => .useReg_bind fun _ => .pure rfl)
  | movlDerefReg =>
    exact KeepsStatusOrFaults.outcome h (.useReg_bind fun _ => .useReg_bind fun _ => .memRead_bind fun _ => .pure rfl)
  | movlRegDeref =>
    exact KeepsStatusOrFaults.outcome h (.useReg_bind fun _ => .useReg_bind fun _ => .memWrite_bind rfl fun _ => rfl)
  | je | jl | jle | jge | jbe | jmp => cases h; exact .completes rfl
  | call imm =>
    exact KeepsStatusOrFaults.outcome h (.memWrite_bind (u := s.spDown) (g := (·.setPc (s.target imm))) rfl fun _ => rfl)
  | pushl => exact KeepsStatusOrFaults.outcome h (.useReg_bind fun _ => .memWrite_bind (u := s.spDown) rfl fun _ => rfl)
  | popl => exact KeepsStatusOrFaults.outcome h (.useReg_bind fun _ => .memRead_bind fun _ => .pure rfl)
  | ret =>
    by_cases hsp : s.sp = sentinel
    · cases (exec_ret_sentinel hsp).symm.trans h
      exact .halts hsp
    · rw [exec_ret_pop hsp] at h
      exact KeepsStatusOrFaults.outcome h (.memRead_bind fun _ => .pure rfl)
  | readr ra =>
    refine KeepsStatusOrFaults.outcome h (.useReg_bind fun _ => ?_)
    split
    · exact .pure rfl
    · exact .inputError ra
    · exact .pure rfl

theorem exec_answers (i : Instr) (s : State) : ∃ t, exec i s = .next t := by
  obtain ⟨r, hexec, -, -⟩ := exec_checks_then_commits i s
  rw [hexec]
  exact commit_answers s r

/-- With every used field legal, the only faults left are the bounds fault and readr's InputError (60_exceptions
R240). -/
theorem exec_outcome_of_legal_fields {i : Instr} {s t : State} (hs : s.status = .running)
    (hlegal : firstIllegal i.usedFields = none) (h : exec i s = .next t) :
    t.status = .running ∨ t.status = .halted ∨ (∃ a n, t = s.faultedWith (.memoryOutOfRange a n)) ∨
      (t = s.faultedWith .inputError ∧ ∃ ra, i = .readr ra) := by
  cases exec_outcome h with
  | completes status => exact .inl (status.trans hs)
  | halts => exact .inr (.inl rfl)
  | faults cause =>
    cases cause with
    | illegalRegister f q =>
      obtain ⟨-, hnever⟩ := registerFieldsAreCheckedRaFirst i s
      exact absurd rfl (hnever hlegal hs _ _ f q h rfl)
    | memoryOutOfRange a n => exact .inr (.inr (.inl ⟨a, n, rfl⟩))
    | inputError ra => exact .inr (.inr (.inr ⟨rfl, ra, rfl⟩))

/-! ## How a step ends -/

theorem State.fetched_eq_some_iff {s : State} {w : Word} :
    s.fetched = some w ↔ s.pc.toNat % 4 = 0 ∧ s.imem[s.pc.toNat / 4]? = some w := by
  rw [State.fetched, Option.ite_none_right_eq_some]

theorem Instr.eq_ret_of_opcode {i : Instr} (h : i.opcode.toNat = 17) : i = .ret := by
  cases i with
  | ret => rfl
  | _ => simp [Instr.opcode] at h

/-- Opcode 17 is ret, whatever the other bits hold (30_encoding R87, R89). -/
theorem decode_eq_ret_iff {w : Word} : decode w = .ok .ret ↔ (w.extractLsb' 27 5).toNat = 17 := by
  refine ⟨fun h => by rw [← decode_opcode h]; rfl, fun h => ?_⟩
  obtain ⟨i, hi⟩ := decode_legal (w := w) (by omega)
  rw [← decode_opcode hi] at h
  rw [hi, Instr.eq_ret_of_opcode h]

/-- The two normal ends: the end of the stream, and ret at the sentinel (60_exceptions R241). -/
def State.NormalEnd (s : State) : Prop :=
  s.pc.toNat = 4 * s.imem.length ∨
    (s.pc.toNat % 4 = 0 ∧ ∃ w, s.imem[s.pc.toNat / 4]? = some w ∧ (w.extractLsb' 27 5).toNat = 17 ∧ s.sp = 1024)

theorem step_of_normalEnd {s : State} (hs : s.status = .running) (hend : s.NormalEnd) : step s = .next s.halt := by
  rcases hend with hpc | ⟨h4, w, hw, hop, hsp⟩
  · have hfetch := fetchChecksInOrder s hs
    rwa [if_pos hpc] at hfetch
  · rw [stepRunsTheDecodedInstruction s w .ret hs h4 hw (decode_eq_ret_iff.mpr hop), exec_ret_sentinel hsp]

/-- The three ends of a step from s to t: the core goes on Running, halts at a normal end, or faults; the last two
change the status alone. -/
inductive StepOutcome (s : State) : State → Prop where
  | runs {t : State} (status : t.status = .running) : StepOutcome s t
  | halts (normalEnd : s.NormalEnd) : StepOutcome s s.halt
  | faults (c : FaultCause) : StepOutcome s (s.faultedWith c)

theorem step_outcome {s t : State} (h : step s = .next t) : StepOutcome s t := by
  have hs : s.status = .running := step_next_running h
  rcases step_running hs with ⟨hpc, ht⟩ | ⟨-, ht⟩ | ⟨-, -, ht⟩ | ⟨w, hw, ⟨e, -, ht⟩ | ⟨i, hd, ht⟩⟩ <;> rw [h] at ht
  · cases ht; exact .halts (.inl hpc)
  · cases ht; exact .faults _
  · cases ht; exact .faults _
  · cases ht; exact .faults _
  · cases exec_outcome ht.symm with
    | completes status => exact .runs (status.trans hs)
    | halts hsp =>
      obtain ⟨h4, hw⟩ := State.fetched_eq_some_iff.mp hw
      exact .halts (.inr ⟨h4, w, hw, decode_eq_ret_iff.mp hd, hsp⟩)
    | faults => exact .faults _

/-- A step halts only at a normal end, with the status alone changed (60_exceptions R241). -/
theorem normalEnd_of_step_halted {s t : State} (h : step s = .next t) (ht : t.status = .halted) :
    s.NormalEnd ∧ t = s.halt := by
  cases step_outcome h with
  | runs status => cases ht.symm.trans status
  | halts hend => exact ⟨hend, rfl⟩
  | faults => cases ht

/-! ## The obligations -/

/-- Settles O11: the fetch checks by O8, the opcode check by decoding, the register checks by O10, and what remains by
`exec_outcome_of_legal_fields`. -/
theorem faultPriorityIsTheOrderOfChecks : Obligations.FaultPriorityIsTheOrderOfChecks := by
  intro s hs hne
  have hfetch := fetchChecksInOrder s hs
  rw [if_neg hne] at hfetch
  by_cases hout : 4 * s.imem.length < s.pc.toNat
  · rwa [if_pos hout] at hfetch ⊢
  rw [if_neg hout] at hfetch ⊢
  by_cases hmis : s.pc.toNat % 4 ≠ 0
  · rwa [if_pos hmis] at hfetch ⊢
  rw [if_neg hmis] at hfetch ⊢
  obtain ⟨w, hw, -⟩ := hfetch
  have hfetched : s.fetched = some w := State.fetched_of_aligned (not_not.mp hmis) hw
  refine ⟨w, hw, ?_⟩
  by_cases hop : 21 < (w.extractLsb' 27 5).toNat
  · rw [if_pos hop, step_of_decode_error hs hfetched (decode_illegal hop), raise_faultedWith]
    rfl
  · rw [if_neg hop]
    obtain ⟨i, hd⟩ := decode_legal (Nat.not_lt.mp hop)
    rw [step_of_decode_ok hs hfetched hd]
    refine ⟨i, hd, ?_⟩
    split
    · next f q hfirst =>
      obtain ⟨hfault, -⟩ := registerFieldsAreCheckedRaFirst i s
      exact hfault f q hfirst
    · next hlegal =>
      obtain ⟨t, ht⟩ := exec_answers i s
      refine ⟨t, ht, ?_, exec_outcome_of_legal_fields hs hlegal ht⟩
      rintro rfl hsp
      cases (exec_ret_sentinel hsp).symm.trans ht
      rfl

/-- Settles O14, by `step_outcome`; a Faulted core is not Running, so it takes no step. -/
theorem faultsArePrecise : Obligations.FaultsArePrecise := by
  intro s t info h hinfo
  cases step_outcome h with
  | runs status => cases hinfo.symm.trans status
  | halts => cases hinfo
  | faults c =>
    cases hinfo
    exact ⟨rfl, rfl, rfl, fun u hu => nomatch step_next_running hu⟩

/-- Settles O15: a step halts only at a normal end by `normalEnd_of_step_halted`, and always there by
`step_of_normalEnd`. -/
theorem normalEndIsEndOfStreamOrRetAtSentinel : Obligations.NormalEndIsEndOfStreamOrRetAtSentinel := by
  intro s t h
  refine ⟨⟨fun hhalted => (normalEnd_of_step_halted h hhalted).1, fun hend => ?_⟩, fun hhalted => ?_⟩
  · cases (step_of_normalEnd (step_next_running h) hend).symm.trans h
    rfl
  · obtain ⟨-, rfl⟩ := normalEnd_of_step_halted h hhalted
    exact ⟨rfl, rfl⟩

end Sys2Proof.Machine

/-! # Load, and no hazards (70_reset R271, R278): the words of a loaded program, and a next state for every Running core -/

namespace Sys2Proof.Machine

/-! ## Load (70_reset R271) -/

theorem loadProgram_of_mod_ne_zero {o : ByteOrder} {bytes : List Byte} (h4 : bytes.length % 4 ≠ 0) :
    loadProgram o bytes = .error (.lengthNotMultipleOf4 bytes.length) := if_pos h4

theorem loadProgram_of_mod_eq_zero {o : ByteOrder} {bytes : List Byte} (h4 : bytes.length % 4 = 0)
    (hmax : bytes.length / 4 ≤ maxWords) : loadProgram o bytes = .ok (wordsOf o bytes) := by
  rw [loadProgram, if_neg (not_not.mpr h4), if_neg (Nat.not_lt.mpr hmax)]

theorem State.boot_of_load_error {c : Config} {bytes : List Byte} {e : LoadError}
    (h : loadProgram c.fileByteOrder bytes = .error e) : State.boot c bytes = .error e := by
  rw [State.boot, h]
  rfl

theorem State.boot_of_load_ok {c : Config} {bytes : List Byte} {ws : List Word}
    (h : loadProgram c.fileByteOrder bytes = .ok ws) :
    State.boot c bytes = .ok { State.reset with imem := ws, config := c } := by
  rw [State.boot, h]
  rfl

/-- Word k of a byte sequence is the word of its bytes 4k to 4k+3. Dropping the first four bytes drops the first word,
so the induction follows `wordsOf`, with k free. -/
theorem wordsOf_getElem? {o : ByteOrder} {bytes : List Byte} {k : Nat} {b0 b1 b2 b3 : Byte}
    (h0 : bytes[4 * k]? = some b0) (h1 : bytes[4 * k + 1]? = some b1) (h2 : bytes[4 * k + 2]? = some b2)
    (h3 : bytes[4 * k + 3]? = some b3) : (wordsOf o bytes)[k]? = some (fileWord o b0 b1 b2 b3) := by
  induction bytes using wordsOf.induct generalizing k with
  | case1 a0 a1 a2 a3 rest ih =>
    cases k with
    | zero =>
      cases h0; cases h1; cases h2; cases h3
      rfl
    | succ k => exact ih h0 h1 h2 h3
  | case2 bytes hshort =>
    obtain ⟨hlen, -⟩ := List.getElem?_eq_some_iff.mp h3
    match bytes, hshort with
    | [], _ | [_], _ | [_, _], _ | [_, _, _], _ => simp at hlen
    | a0 :: a1 :: a2 :: a3 :: rest, hshort => exact (hshort a0 a1 a2 a3 rest rfl).elim

/-! ## The obligations -/

/-- Settles O13: fetch faults, illegal opcodes and the end of the stream answer a next state by `step_running`, and a
decoded instruction answers one by `exec_answers`. -/
theorem runningCoreAlwaysHasANextState : Obligations.RunningCoreAlwaysHasANextState := by
  refine ⟨fun s hs => ?_, exec_answers⟩
  rcases step_running hs with ⟨-, ht⟩ | ⟨-, ht⟩ | ⟨-, -, ht⟩ | ⟨w, -, ⟨e, -, ht⟩ | ⟨i, -, ht⟩⟩
  · exact ⟨_, ht⟩
  · exact ⟨_, ht⟩
  · exact ⟨_, ht⟩
  · exact ⟨_, ht⟩
  · rw [ht]
    exact exec_answers i s

/-- Settles O17: the length by `wordsOf_length`, each word by `wordsOf_getElem?`, where bytes 4k to 4k+3 lie within the
sequence. -/
theorem loadAssemblesInstructionWords : Obligations.LoadAssemblesInstructionWords := by
  intro c bytes
  refine ⟨fun h4 => ⟨_, State.boot_of_load_error (loadProgram_of_mod_ne_zero h4), rfl⟩, fun h4 hmax => ?_⟩
  refine ⟨_, State.boot_of_load_ok (loadProgram_of_mod_eq_zero h4 hmax), wordsOf_length _ _, fun k hk => ?_⟩
  have hbyte : ∀ j, j < 4 * (bytes.length / 4) → ∃ b, bytes[j]? = some b :=
    fun j hj => ⟨_, List.getElem?_eq_getElem (by omega)⟩
  obtain ⟨b0, h0⟩ := hbyte (4 * k) (by omega)
  obtain ⟨b1, h1⟩ := hbyte (4 * k + 1) (by omega)
  obtain ⟨b2, h2⟩ := hbyte (4 * k + 2) (by omega)
  obtain ⟨b3, h3⟩ := hbyte (4 * k + 3) (by omega)
  have hword : (wordsOf c.fileByteOrder bytes)[k]? = some (fileWord c.fileByteOrder b0 b1 b2 b3) :=
    wordsOf_getElem? h0 h1 h2 h3
  refine ⟨b0, b1, b2, b3, h0, h1, h2, h3, fun horder => ?_, fun horder => ?_⟩
  · rw [horder] at hword ⊢
    exact hword
  · rw [horder] at hword ⊢
    exact hword

end Sys2Proof.Machine
